-- ==== Sys2Proof/Word.lean ====
section
/-! DEFINITION. The value types of the CLICHIP-8 core, each at the width `00_scope.md` rule R3 gives it.
Every quantity is unsigned (rule R5) and bits are numbered from 0 at the least significant bit (rule R4). -/

namespace Sys2Proof

/-- A memory byte, a general register or an 8-bit immediate (`REG_W` = 8, rule R3). -/
abbrev Byte := BitVec 8

/-- A 16-bit value: an instruction word, PC, I or a return address (`INSN_W`, `PC_W`, `I_W`, rule R3). -/
abbrev Word := BitVec 16

/-- The 12-bit address field NNN of an instruction word (rule R51). -/
abbrev Addr12 := BitVec 12

/-- A 4-bit field of an instruction word: OP or N (rule R51). -/
abbrev Nibble := BitVec 4

/-- A framebuffer row: 64 one-bit pixels, column c in bit 63 - c (rules R15, R120). -/
abbrev PixelRow := BitVec 64

/-- The number of a general register, V0 to VF (`NREG` = 16, rule R10). -/
abbrev Reg := Fin 16

/-- VF, the general register that is also the carry, borrow and collision flag (rule R11). -/
abbrev VF : Reg := 15

/-- V0, the offset register of BNNN (rule R74). -/
abbrev V0 : Reg := 0

end Sys2Proof
end

