-- ==== Sys2Proof/Syntax.lean ====
section
/-! DEFINITION. The instruction set: one constructor per row of spec/opcode_table.json, in its priority order
(`30_encoding.md` rule R61). A constructor holds EVERY field bit of its word that the row does not fix, the ignored
ones of rule R58 too, so that a word can be rebuilt from its instruction without loss. -/

namespace Sys2Proof

/-- The 38 instructions. The comment on each is the mnemonic of rule R61 and the rule that gives its meaning. -/
inductive Instr where
  /-- `CLS` (00E0), rule R122. -/
  | cls
  /-- `RET` (00EE), rule R71. -/
  | ret
  /-- `SYS nnn` (0NNN other than 00E0 and 00EE), rule R70; nnn is ignored. -/
  | sys (nnn : Addr12)
  /-- `JP nnn` (1NNN), rule R72. -/
  | jp (nnn : Addr12)
  /-- `CALL nnn` (2NNN), rule R73. -/
  | call (nnn : Addr12)
  /-- `SE Vx, nn` (3XNN), rule R80. -/
  | seImm (x : Reg) (nn : Byte)
  /-- `SNE Vx, nn` (4XNN), rule R81. -/
  | sneImm (x : Reg) (nn : Byte)
  /-- `SE Vx, Vy` (5XYN), rule R82; n is not inspected (rule R57). -/
  | seReg (x y : Reg) (n : Nibble)
  /-- `LD Vx, nn` (6XNN), rule R90. -/
  | ldImm (x : Reg) (nn : Byte)
  /-- `ADD Vx, nn` (7XNN), rule R91. -/
  | addImm (x : Reg) (nn : Byte)
  /-- `LD Vx, Vy` (8XY0), rule R101. -/
  | ldReg (x y : Reg)
  /-- `OR Vx, Vy` (8XY1), rule R102. -/
  | orReg (x y : Reg)
  /-- `AND Vx, Vy` (8XY2), rule R103. -/
  | andReg (x y : Reg)
  /-- `XOR Vx, Vy` (8XY3), rule R104. -/
  | xorReg (x y : Reg)
  /-- `ADD Vx, Vy` (8XY4), rule R105. -/
  | addReg (x y : Reg)
  /-- `SUB Vx, Vy` (8XY5), rule R106. -/
  | subReg (x y : Reg)
  /-- `SHR Vx` (8XY6), rule R107; y is ignored (rule R58). -/
  | shr (x y : Reg)
  /-- `SUBN Vx, Vy` (8XY7), rule R108. -/
  | subnReg (x y : Reg)
  /-- `SHL Vx` (8XYE), rule R109; y is ignored (rule R58). -/
  | shl (x y : Reg)
  /-- `UNDEF8` (8XYN, N in 8 9 A B C D F), rule R110; x and y are ignored. -/
  | undef8 (x y : Reg) (n : Nibble)
  /-- `SNE Vx, Vy` (9XYN), rule R83; n is not inspected (rule R57). -/
  | sneReg (x y : Reg) (n : Nibble)
  /-- `LD I, nnn` (ANNN), rule R92. -/
  | ldI (nnn : Addr12)
  /-- `JP V0, nnn` (BNNN), rule R74. -/
  | jpV0 (nnn : Addr12)
  /-- `RND Vx, nn` (CXNN), rule R93. -/
  | rnd (x : Reg) (nn : Byte)
  /-- `DRW Vx, Vy, n` (DXYN), rule R123. -/
  | drw (x y : Reg) (n : Nibble)
  /-- `SKP Vx` (EX9E), rule R130; x is ignored. -/
  | skp (x : Reg)
  /-- `SKNP Vx` (EXA1), rule R131; x is ignored. -/
  | sknp (x : Reg)
  /-- `UNDEFE` (EXNN, NN not 9E or A1), rule R132; x is ignored. -/
  | undefE (x : Reg) (nn : Byte)
  /-- `LD Vx, DT` (FX07), rule R133; x is ignored. -/
  | ldVxDT (x : Reg)
  /-- `LD Vx, K` (FX0A), rule R134; x is ignored. -/
  | ldVxK (x : Reg)
  /-- `LD DT, Vx` (FX15), rule R135; x is ignored. -/
  | ldDTVx (x : Reg)
  /-- `LD ST, Vx` (FX18), rule R136; x is ignored. -/
  | ldSTVx (x : Reg)
  /-- `ADD I, Vx` (FX1E), rule R150. -/
  | addI (x : Reg)
  /-- `LD F, Vx` (FX29), rule R137; x is ignored. -/
  | ldFVx (x : Reg)
  /-- `LD B, Vx` (FX33), rule R138; x is ignored. -/
  | ldBVx (x : Reg)
  /-- `LD [I], Vx` (FX55), rule R151: x is the COUNT of registers stored. -/
  | storeRegs (x : Reg)
  /-- `LD Vx, [I]` (FX65), rule R152: x is the COUNT of registers loaded. -/
  | loadRegs (x : Reg)
  /-- `UNDEFF` (FXNN, NN none of the nine listed), rule R139; x is ignored. -/
  | undefF (x : Reg) (nn : Byte)
  deriving DecidableEq, Repr

end Sys2Proof
end

