-- ==== Sys2Proof/WellFormed.lean ====
section
/-! DEFINITION. Which terms of `Instr` stand for a word of their own row: the four rows that the opcode map
(`30_encoding.md` rule R61) places after more specific ones must not hold a field value that belongs to those. -/

namespace Sys2Proof

/-- The low 12 bits of CLS and RET, the two words 0NNN is not (rule R56). -/
def sysExcluded : List Addr12 := [0x0E0, 0x0EE]

/-- The defined values of N in family 8 (rule R56). -/
def family8Defined : List Nibble := [0x0, 0x1, 0x2, 0x3, 0x4, 0x5, 0x6, 0x7, 0xE]

/-- The recognised values of NN in family E (rule R56). -/
def familyERecognised : List Byte := [0x9E, 0xA1]

/-- The recognised values of NN in family F (rule R56). -/
def familyFRecognised : List Byte := [0x07, 0x0A, 0x15, 0x18, 0x1E, 0x29, 0x33, 0x55, 0x65]

/-- An instruction is well formed when its encoding selects its own row of the opcode map (rules R56, R59, R61).
Every other constructor is well formed at every operand: the types of its fields are exactly the encodable values. -/
def Instr.wf : Instr → Bool
  | .sys nnn => !sysExcluded.contains nnn
  | .undef8 _ _ n => !family8Defined.contains n
  | .undefE _ nn => !familyERecognised.contains nn
  | .undefF _ nn => !familyFRecognised.contains nn
  | .cls | .ret | .jp _ | .call _ | .seImm _ _ | .sneImm _ _ | .seReg _ _ _ | .ldImm _ _ | .addImm _ _
  | .ldReg _ _ | .orReg _ _ | .andReg _ _ | .xorReg _ _ | .addReg _ _ | .subReg _ _ | .shr _ _ | .subnReg _ _
  | .shl _ _ | .sneReg _ _ _ | .ldI _ | .jpV0 _ | .rnd _ _ | .drw _ _ _ | .skp _ | .sknp _ | .ldVxDT _
  | .ldVxK _ | .ldDTVx _ | .ldSTVx _ | .addI _ | .ldFVx _ | .ldBVx _ | .storeRegs _ | .loadRegs _ => true

end Sys2Proof
end

