-- ==== Sys2Proof/Decode.lean ====
section
/-! DEFINITION. The instruction decoder of `30_encoding.md` (rules R50 to R61), total on every word (rule R64); the
decoder of a byte stream, which rejects by name; the opcode map of rule R61 as data; the encoder. -/

namespace Sys2Proof

/-! ### The six fields of a word (rule R51) -/

/-- OP = w[15:12]. -/
def fieldOp (w : Word) : Nibble := w.extractLsb' 12 4
/-- NNN = w[11:0]. -/
def fieldNNN (w : Word) : Addr12 := w.extractLsb' 0 12
/-- X = w[11:8], as a register number. -/
def fieldX (w : Word) : Reg := (w.extractLsb' 8 4).toFin
/-- Y = w[7:4], as a register number. -/
def fieldY (w : Word) : Reg := (w.extractLsb' 4 4).toFin
/-- NN = w[7:0]. -/
def fieldNN (w : Word) : Byte := w.extractLsb' 0 8
/-- N = w[3:0]. -/
def fieldN (w : Word) : Nibble := w.extractLsb' 0 4

/-! ### Decoding a word -/

/-- Family 0 dispatches on the whole word (rule R56). -/
def decodeFamily0 (w : Word) : Instr :=
  if w = 0x00E0 then .cls else if w = 0x00EE then .ret else .sys (fieldNNN w)

/-- Family 8 dispatches on N (rule R56). -/
def decodeFamily8 (x y : Reg) (n : Nibble) : Instr :=
  match n with
  | 0x0#4 => .ldReg x y
  | 0x1#4 => .orReg x y
  | 0x2#4 => .andReg x y
  | 0x3#4 => .xorReg x y
  | 0x4#4 => .addReg x y
  | 0x5#4 => .subReg x y
  | 0x6#4 => .shr x y
  | 0x7#4 => .subnReg x y
  | 0xE#4 => .shl x y
  | n => .undef8 x y n

/-- Family E dispatches on NN (rule R56). -/
def decodeFamilyE (x : Reg) (nn : Byte) : Instr :=
  match nn with
  | 0x9E#8 => .skp x
  | 0xA1#8 => .sknp x
  | nn => .undefE x nn

/-- Family F dispatches on NN (rule R56). -/
def decodeFamilyF (x : Reg) (nn : Byte) : Instr :=
  match nn with
  | 0x07#8 => .ldVxDT x
  | 0x0A#8 => .ldVxK x
  | 0x15#8 => .ldDTVx x
  | 0x18#8 => .ldSTVx x
  | 0x1E#8 => .addI x
  | 0x29#8 => .ldFVx x
  | 0x33#8 => .ldBVx x
  | 0x55#8 => .storeRegs x
  | 0x65#8 => .loadRegs x
  | nn => .undefF x nn

/-- The decoder: every one of the 65536 words is an instruction (rule R64). Primary dispatch is on OP (rule R55);
the last arm is the one remaining value of OP, 0xF. -/
def decodeWord (w : Word) : Instr :=
  match fieldOp w with
  | 0x0#4 => decodeFamily0 w
  | 0x1#4 => .jp (fieldNNN w)
  | 0x2#4 => .call (fieldNNN w)
  | 0x3#4 => .seImm (fieldX w) (fieldNN w)
  | 0x4#4 => .sneImm (fieldX w) (fieldNN w)
  | 0x5#4 => .seReg (fieldX w) (fieldY w) (fieldN w)
  | 0x6#4 => .ldImm (fieldX w) (fieldNN w)
  | 0x7#4 => .addImm (fieldX w) (fieldNN w)
  | 0x8#4 => decodeFamily8 (fieldX w) (fieldY w) (fieldN w)
  | 0x9#4 => .sneReg (fieldX w) (fieldY w) (fieldN w)
  | 0xA#4 => .ldI (fieldNNN w)
  | 0xB#4 => .jpV0 (fieldNNN w)
  | 0xC#4 => .rnd (fieldX w) (fieldNN w)
  | 0xD#4 => .drw (fieldX w) (fieldY w) (fieldN w)
  | 0xE#4 => decodeFamilyE (fieldX w) (fieldNN w)
  | _ => decodeFamilyF (fieldX w) (fieldNN w)

/-! ### Decoding bytes -/

/-- Why the byte decoder rejects: the stream ends inside a word. No word is rejected (rule R64). -/
inductive DecodeError where
  /-- Fewer than the two bytes of an instruction word are left (rule R50). -/
  | truncated
  deriving DecidableEq, Repr

/-- The word of two bytes of memory, the byte at the lower address first: big-endian (rule R34). -/
def wordOfBytes (hi lo : Byte) : Word := hi ++ lo

/-- One instruction from the front of a byte stream, and the bytes after it (rules R34, R50). -/
def decode : List Byte → Except DecodeError (Instr × List Byte)
  | hi :: lo :: rest => .ok (decodeWord (wordOfBytes hi lo), rest)
  | [_] => .error .truncated
  | [] => .error .truncated

/-! ### The opcode map as data (rule R61) -/

/-- One row of spec/opcode_table.json. -/
structure OpcodeRow where
  priority : Nat
  mnemonic : String
  pattern : Word
  mask : Word
  deriving DecidableEq, Repr

/-- A word matches a row when it agrees with the pattern on the mask's bits. -/
def OpcodeRow.matches (r : OpcodeRow) (w : Word) : Bool := w &&& r.mask == r.pattern

/-- Rows 1 to 20: families 0 to 8. -/
def opcodeRowsLow : List OpcodeRow :=
  [⟨1, "CLS", 0x00E0, 0xFFFF⟩, ⟨2, "RET", 0x00EE, 0xFFFF⟩, ⟨3, "SYS_nnn", 0x0000, 0xF000⟩,
   ⟨4, "JP_nnn", 0x1000, 0xF000⟩, ⟨5, "CALL_nnn", 0x2000, 0xF000⟩, ⟨6, "SE_Vx__nn", 0x3000, 0xF000⟩,
   ⟨7, "SNE_Vx__nn", 0x4000, 0xF000⟩, ⟨8, "SE_Vx__Vy", 0x5000, 0xF000⟩, ⟨9, "LD_Vx__nn", 0x6000, 0xF000⟩,
   ⟨10, "ADD_Vx__nn", 0x7000, 0xF000⟩, ⟨11, "LD_Vx__Vy", 0x8000, 0xF00F⟩, ⟨12, "OR_Vx__Vy", 0x8001, 0xF00F⟩,
   ⟨13, "AND_Vx__Vy", 0x8002, 0xF00F⟩, ⟨14, "XOR_Vx__Vy", 0x8003, 0xF00F⟩, ⟨15, "ADD_Vx__Vy", 0x8004, 0xF00F⟩,
   ⟨16, "SUB_Vx__Vy", 0x8005, 0xF00F⟩, ⟨17, "SHR_Vx", 0x8006, 0xF00F⟩, ⟨18, "SUBN_Vx__Vy", 0x8007, 0xF00F⟩,
   ⟨19, "SHL_Vx", 0x800E, 0xF00F⟩, ⟨20, "UNDEF8", 0x8000, 0xF000⟩]

/-- Rows 21 to 38: families 9 to F. -/
def opcodeRowsHigh : List OpcodeRow :=
  [⟨21, "SNE_Vx__Vy", 0x9000, 0xF000⟩, ⟨22, "LD_I__nnn", 0xA000, 0xF000⟩, ⟨23, "JP_V0__nnn", 0xB000, 0xF000⟩,
   ⟨24, "RND_Vx__nn", 0xC000, 0xF000⟩, ⟨25, "DRW_Vx__Vy__n", 0xD000, 0xF000⟩, ⟨26, "SKP_Vx", 0xE09E, 0xF0FF⟩,
   ⟨27, "SKNP_Vx", 0xE0A1, 0xF0FF⟩, ⟨28, "UNDEFE", 0xE000, 0xF000⟩, ⟨29, "LD_Vx__DT", 0xF007, 0xF0FF⟩,
   ⟨30, "LD_Vx__K", 0xF00A, 0xF0FF⟩, ⟨31, "LD_DT__Vx", 0xF015, 0xF0FF⟩, ⟨32, "LD_ST__Vx", 0xF018, 0xF0FF⟩,
   ⟨33, "ADD_I__Vx", 0xF01E, 0xF0FF⟩, ⟨34, "LD_F__Vx", 0xF029, 0xF0FF⟩, ⟨35, "LD_B__Vx", 0xF033, 0xF0FF⟩,
   ⟨36, "LD__I___Vx", 0xF055, 0xF0FF⟩, ⟨37, "LD_Vx___I", 0xF065, 0xF0FF⟩, ⟨38, "UNDEFF", 0xF000, 0xF000⟩]

/-- The 38 rows in priority order: the first that matches a word is the word's row (rule R61). -/
def opcodeTable : List OpcodeRow := opcodeRowsLow ++ opcodeRowsHigh

/-- The priority number of the row a constructor stands for. -/
def Instr.priority : Instr → Nat
  | .cls => 1
  | .ret => 2
  | .sys _ => 3
  | .jp _ => 4
  | .call _ => 5
  | .seImm _ _ => 6
  | .sneImm _ _ => 7
  | .seReg _ _ _ => 8
  | .ldImm _ _ => 9
  | .addImm _ _ => 10
  | .ldReg _ _ => 11
  | .orReg _ _ => 12
  | .andReg _ _ => 13
  | .xorReg _ _ => 14
  | .addReg _ _ => 15
  | .subReg _ _ => 16
  | .shr _ _ => 17
  | .subnReg _ _ => 18
  | .shl _ _ => 19
  | .undef8 _ _ _ => 20
  | .sneReg _ _ _ => 21
  | .ldI _ => 22
  | .jpV0 _ => 23
  | .rnd _ _ => 24
  | .drw _ _ _ => 25
  | .skp _ => 26
  | .sknp _ => 27
  | .undefE _ _ => 28
  | .ldVxDT _ => 29
  | .ldVxK _ => 30
  | .ldDTVx _ => 31
  | .ldSTVx _ => 32
  | .addI _ => 33
  | .ldFVx _ => 34
  | .ldBVx _ => 35
  | .storeRegs _ => 36
  | .loadRegs _ => 37
  | .undefF _ _ => 38

/-! ### Encoding (the formats of rule R52) -/

/-- Format NNN: `OP[4] NNN[12]`. -/
def wordNNN (op : Nibble) (nnn : Addr12) : Word := op ++ nnn
/-- Formats XNN and X: `OP[4] X[4] NN[8]`. -/
def wordXNN (op : Nibble) (x : Reg) (nn : Byte) : Word := wordNNN op (BitVec.ofFin x ++ nn)
/-- Formats XY and XYN: `OP[4] X[4] Y[4] N[4]`. -/
def wordXYN (op : Nibble) (x y : Reg) (n : Nibble) : Word := wordXNN op x (BitVec.ofFin y ++ n)

/-- The word of an instruction, from the encodings of rule R61 (each is also the Encoding line of its own rule). -/
def encodeWord : Instr → Word
  | .cls => 0x00E0
  | .ret => 0x00EE
  | .sys nnn => wordNNN 0x0 nnn
  | .jp nnn => wordNNN 0x1 nnn
  | .call nnn => wordNNN 0x2 nnn
  | .seImm x nn => wordXNN 0x3 x nn
  | .sneImm x nn => wordXNN 0x4 x nn
  | .seReg x y n => wordXYN 0x5 x y n
  | .ldImm x nn => wordXNN 0x6 x nn
  | .addImm x nn => wordXNN 0x7 x nn
  | .ldReg x y => wordXYN 0x8 x y 0x0
  | .orReg x y => wordXYN 0x8 x y 0x1
  | .andReg x y => wordXYN 0x8 x y 0x2
  | .xorReg x y => wordXYN 0x8 x y 0x3
  | .addReg x y => wordXYN 0x8 x y 0x4
  | .subReg x y => wordXYN 0x8 x y 0x5
  | .shr x y => wordXYN 0x8 x y 0x6
  | .subnReg x y => wordXYN 0x8 x y 0x7
  | .shl x y => wordXYN 0x8 x y 0xE
  | .undef8 x y n => wordXYN 0x8 x y n
  | .sneReg x y n => wordXYN 0x9 x y n
  | .ldI nnn => wordNNN 0xA nnn
  | .jpV0 nnn => wordNNN 0xB nnn
  | .rnd x nn => wordXNN 0xC x nn
  | .drw x y n => wordXYN 0xD x y n
  | .skp x => wordXNN 0xE x 0x9E
  | .sknp x => wordXNN 0xE x 0xA1
  | .undefE x nn => wordXNN 0xE x nn
  | .ldVxDT x => wordXNN 0xF x 0x07
  | .ldVxK x => wordXNN 0xF x 0x0A
  | .ldDTVx x => wordXNN 0xF x 0x15
  | .ldSTVx x => wordXNN 0xF x 0x18
  | .addI x => wordXNN 0xF x 0x1E
  | .ldFVx x => wordXNN 0xF x 0x29
  | .ldBVx x => wordXNN 0xF x 0x33
  | .storeRegs x => wordXNN 0xF x 0x55
  | .loadRegs x => wordXNN 0xF x 0x65
  | .undefF x nn => wordXNN 0xF x nn

/-- The byte at the lower address of a word stored in memory: w[15:8] (rules R4, R34). -/
def highByte (w : Word) : Byte := w.extractLsb' 8 8
/-- The byte at the higher address of a word stored in memory: w[7:0] (rules R4, R34). -/
def lowByte (w : Word) : Byte := w.extractLsb' 0 8

/-- The bytes of an instruction as memory holds them, high byte first (rules R34, R50). -/
def encode (i : Instr) : List Byte := [highByte (encodeWord i), lowByte (encodeWord i)]

/-! ### The host's numbering of a table word -/

/-- The 16-bit word of an instruction whose lowest `nbits` bits are `w` and whose other bits are 0. The table's
bit 0 is the word's bit 0, and an instruction is exactly one word (rules R4, R50). -/
def tableWord (nbits w : Nat) : Word := BitVec.ofNat 16 (w % 2 ^ nbits)

/-- What the decoder reads from a table word laid out as memory holds it. -/
def decodeTableWord (nbits w : Nat) : Option Instr :=
  match decode [highByte (tableWord nbits w), lowByte (tableWord nbits w)] with
  | .ok (i, _) => some i
  | .error _ => none

end Sys2Proof
end

