-- ==== Sys2Proof/Config.lean ====
section
/-! DEFINITION. The implementation parameters of `00_scope.md` rule R3, and the one free value of the machine:
the random source of `42_immediate_index_random.md` rule R93. -/

namespace Sys2Proof.Config

/-- `MEM_SIZE`: addresses 0x000 to 0xFFF (rules R3, R30). -/
@[simp] abbrev memSize : Nat := 0x1000

/-- `RESERVED_BASE`: first address of the reserved high region, and so the end of the legal window (rules R3, R31, R32). -/
@[simp] abbrev reservedBase : Nat := 0xEA0

/-- `PROG_BASE`: where the program image is loaded (rules R3, R181). -/
@[simp] abbrev progBase : Nat := 0x200

/-- `MAX_IMAGE` = 0xEA0 - 0x200 = 3232 bytes (rules R3, R181). -/
@[simp] abbrev maxImage : Nat := 3232

/-- `STACK_DEPTH`, the nesting limit (rules R3, R14). -/
@[simp] abbrev stackDepth : Nat := 12

/-- `FB_ROWS` (rules R3, R15). -/
@[simp] abbrev fbRows : Nat := 32

/-- `FB_COLS` (rules R3, R15). -/
@[simp] abbrev fbCols : Nat := 64

/-- `ENTRY_POINT` at its default, 0x200 (rules R3, R21; decision D15). `State.resetAt` takes any other value. -/
abbrev entryPoint : Word := 0x200

/-- FREE VALUE (log entry 1). The random source of CXNN: `rnd k` is the byte that the k-th executed CXNN receives.
Rule R93: it is "a free input under no law". It has no body, so no proof can see a byte of it, and what is proved
of the machine holds for every sequence of draws (decision D13). -/
opaque rnd : Nat → Byte

end Sys2Proof.Config
end

