-- ==== Sys2Proof/Machine/Memory.lean ====
section
/-! DEFINITION. The one address space (`20_memory.md` rules R30 to R33) as a canonical list of cells, and its two
primitive operations. The address check of rule R32 is in Ops.lean: these are the raw `MemRead` and `MemWrite`. -/

namespace Sys2Proof.Machine

/-- `MEM`: the bytes that differ from what an unlisted address reads as, addresses strictly rising (log entry 8). -/
abbrev Memory := List Host.Cell

/-- What an unlisted address reads as: the reset contents, 0x00 (rules R21, R31). -/
def Memory.unlisted : Byte := 0x00

/-- `MemRead(a, 1)` (rule R33). -/
def Memory.read : Memory → Nat → Byte
  | [], _ => Memory.unlisted
  | c :: m, a => if c.1 = a then c.2 else Memory.read m a

/-- The cells of every address but one. -/
def Memory.without (m : Memory) (a : Nat) : Memory := m.filter (fun c => c.1 != a)

/-- A cell put at its place in the rising order. -/
def Memory.place : Memory → Nat → Byte → Memory
  | [], a, b => [(a, b)]
  | c :: m, a, b => if a < c.1 then (a, b) :: c :: m else c :: Memory.place m a b

/-- `MemWrite(a, 1, b)` (rule R33): that one byte and nothing else. Writing the unlisted value removes the entry. -/
def Memory.write (m : Memory) (a : Nat) (b : Byte) : Memory :=
  if b = Memory.unlisted then Memory.without m a else Memory.place (Memory.without m a) a b

/-- The canonical form: addresses strictly rising and inside the 4096 bytes of rule R30, no entry at the unlisted
value. Equal memories are then equal lists. -/
abbrev Memory.wf (m : Memory) : Prop :=
  m.Pairwise (fun c d => c.1 < d.1) ∧ ∀ c ∈ m, c.1 < Config.memSize ∧ c.2 ≠ Memory.unlisted

end Sys2Proof.Machine
end

