-- ==== Sys2Proof/Machine/State.lean ====
section
/-! DEFINITION. The machine's state (`10_state.md`), all of it as plain data, its reset value (rule R21), and the
reasons a step can stop. -/

namespace Sys2Proof.Machine

/-- `STATUS`, one bit (rule R17). -/
inductive Status where
  /-- 0 = RUN: the core performs steps. -/
  | run
  /-- 1 = FAULT: sticky until reset (rule R167). -/
  | fault
  deriving DecidableEq, Repr

/-- `FCAUSE`, the fault cause (rules R17, R166). -/
inductive FaultCause where
  /-- 0: no fault. -/
  | none
  /-- 1: a byte of the instruction word lies above 0xFFF. -/
  | fetchRange
  /-- 2: a byte of the instruction word lies in 0xEA0 to 0xFFF. -/
  | fetchReserved
  /-- 3: a data byte address lies above 0xFFF. -/
  | dataRange
  /-- 4: a data byte address lies in 0xEA0 to 0xFFF. -/
  | dataReserved
  deriving DecidableEq, Repr

/-- The kind of a memory access, which selects the fault's family (rule R32). -/
inductive Access where
  | fetch
  | data
  deriving DecidableEq, Repr

/-- The diagnostic a step produces (rule R174). -/
inductive Diag where
  /-- 0: nothing to report. -/
  | none
  /-- 1: UNDEFINED_INSTRUCTION (rule R162). -/
  | undefinedInstruction
  /-- 2: STACK_UNDERFLOW (rule R164). -/
  | stackUnderflow
  deriving DecidableEq, Repr

/-- The two outputs of a completed step (rule R19). -/
structure StepOutputs where
  /-- `diag` (rule R174). -/
  diag : Diag
  /-- `no_progress`: PC after the step equals PC before it (rule R165). -/
  noProgress : Bool
  deriving DecidableEq, Repr

/-- The Machine State (`10_state.md` section 1) and the model's two own fields. -/
structure State where
  /-- V0 to VF, 8 bits each (rule R10). -/
  v : Vector Byte 16
  /-- The index register I, 16 bits (rule R12). -/
  i : Word
  /-- The program counter, 16 bits (rule R13). -/
  pc : Word
  /-- The depth counter SP, 8 bits, legal values 0 to 12 (rule R14). -/
  sp : BitVec 8
  /-- STACK[0] to STACK[11], 16 bits each, oldest first (rule R14). -/
  stack : Vector Word 12
  /-- FB[0] to FB[31], 64 bits each (rule R15). -/
  fb : Vector PixelRow 32
  /-- MEM, 4096 bytes (rule R16). -/
  mem : Memory
  /-- STATUS, 1 bit (rule R17). -/
  status : Status
  /-- FCAUSE, 3 bits (rule R17). -/
  fcause : FaultCause
  /-- FADDR, 17 bits (rule R17). -/
  faddr : BitVec 17
  /-- MODEL'S OWN FIELD (log entry 5): the outputs of the last completed step; none after reset and after a step that
  faulted, which produces no outputs (rules R19, R167). -/
  outputs : Option StepOutputs
  /-- MODEL'S OWN FIELD (log entry 1): how many bytes CXNN has drawn from the random source (rules R20, R93). -/
  draws : Nat
  deriving DecidableEq, Repr

/-- Why the model stops a step. The spec's own faults (rule R166) are NOT here: their entry is described (rule R167),
so the model takes them as a next state with STATUS = FAULT (log entry 2). -/
inductive Fault where
  /-- Raised by RET alone, when SP - 1 is no index of the twelve stack entries, that is when SP is above 12: a state
  that the invariant of rule R22 excludes and no step reaches. SAFE: the model stops (log entry 4). -/
  | stackDepthOutOfRange
  deriving DecidableEq, Repr

/-- Why the model gives an instruction no meaning. -/
inductive Refusal where
  /-- Raised by an arm of exec whose instruction has no meaning yet. SAFE. No arm of this model raises it. -/
  | notModelled (mnemonic : String)
  deriving DecidableEq, Repr

/-- What a meaning answers. -/
abbrev Result := Host.Outcome State Fault Refusal

/-- Reset (rules R21, R180): every piece of state zero, PC at the entry point, STATUS = RUN. -/
def State.resetAt (entry : Word) : State where
  v := Vector.replicate 16 0
  i := 0
  pc := entry
  sp := 0
  stack := Vector.replicate 12 0
  fb := Vector.replicate 32 0
  mem := []
  status := .run
  fcause := .none
  faddr := 0
  outputs := none
  draws := 0

/-- The machine right after reset, with the default entry point 0x200 (rule R21, log entry 7). -/
def State.reset : State := State.resetAt Config.entryPoint

end Sys2Proof.Machine
end

