-- ==== Sys2Proof/Machine/Flags.lean ====
section
/-! DEFINITION. The values that VF takes: the five flags of family 8 (`43_alu.md` rules R105 to R109) and the
collision flag of DXYN (`44_display.md` rule R124). A flag write stores 0x00 or 0x01 (`10_state.md` rule R11). -/

namespace Sys2Proof.Machine

/-- A flag as the byte that replaces all of VF (rule R11). -/
def flagByte (b : Bool) : Byte := if b then 0x01 else 0x00

/-- 8XY4: 1 if a + b > 255 (rule R105). -/
def carryFlag (a b : Byte) : Byte := flagByte (decide (255 < a.toNat + b.toNat))

/-- 8XY5 and 8XY7, for minuend a and subtrahend b: 0 if b > a (borrow), else 1 (rules R106, R108). -/
def notBorrowFlag (a b : Byte) : Byte := flagByte (!decide (a.toNat < b.toNat))

/-- 8XY6: the bit shifted out, bit 0 (rule R107). -/
def shiftRightFlag (a : Byte) : Byte := a &&& 0x01

/-- 8XYE: the bit shifted out, bit 7 (rule R109). -/
def shiftLeftFlag (a : Byte) : Byte := a >>> 7

end Sys2Proof.Machine
end

