-- ==== Sys2Proof/Machine/Operands.lean ====
section
/-! DEFINITION. Operand access: registers by number (`10_state.md` rule R10), immediates (`30_encoding.md` rule R53),
effective addresses (`20_memory.md` rule R38), framebuffer rows and stack entries by index. -/

namespace Sys2Proof.Machine

/-- `V[r]` (rule R10). -/
def State.reg (s : State) (r : Reg) : Byte := s.v.get r

/-- `V[r] <- b` (rule R10): no register is hard-wired. -/
def State.setReg (s : State) (r : Reg) (b : Byte) : State := { s with v := s.v.set r b }

/-- The register with a number below 16, as the block transfers count them (rules R151, R152). -/
def regNo (k : Nat) : Reg := Fin.ofNat 16 k

/-- `zext_16(NNN)` (rule R53). -/
def zextAddr (nnn : Addr12) : Word := nnn.setWidth 16

/-- `zext_16(V[X])` (rules R74, R150). -/
def zextByte (b : Byte) : Word := b.setWidth 16

/-- `rnd`: the byte the random source delivers to this step (rules R20, R93), a free value (log entry 1). -/
def State.nextDraw (s : State) : Byte := Config.rnd s.draws

/-- The random source has delivered one byte. -/
def State.countDraw (s : State) : State := { s with draws := s.draws + 1 }

/-- The k-th byte of the instruction word: PC + k, an exact sum (rules R34, R38). -/
def State.fetchAddr (s : State) (k : Nat) : Nat := s.pc.toNat + k

/-- The k-th data byte: I + k, an exact sum, never wrapped and never masked (rule R38, decision D16). -/
def State.dataAddr (s : State) (k : Nat) : Nat := s.i.toNat + k

/-- The first n data addresses in ascending order (rules R32, R37). -/
def State.dataAddrs (s : State) (n : Nat) : List Nat := (List.range n).map s.dataAddr

/-- `FB[k]` for k below 32. -/
def fbRow (fb : Vector PixelRow 32) (k : Nat) : PixelRow := fb[k]?.getD 0

/-- The pixel in row r and column c: bit 63 - c of `FB[r]` (rule R120). -/
def State.pixel (s : State) (r : Fin 32) (c : Fin 64) : Bool := (s.fb.get r).getLsbD (63 - c.val)

/-- The code of FCAUSE that the host reads (rules R17, R166). -/
def FaultCause.code : FaultCause → BitVec 3
  | .none => 0
  | .fetchRange => 1
  | .fetchReserved => 2
  | .dataRange => 3
  | .dataReserved => 4

/-- The bit of STATUS that the host reads (rule R17). -/
def Status.bit : Status → BitVec 1
  | .run => 0
  | .fault => 1

/-- The code of the diagnostic output (rule R174). -/
def Diag.code : Diag → BitVec 2
  | .none => 0
  | .undefinedInstruction => 1
  | .stackUnderflow => 2

end Sys2Proof.Machine
end

