-- ==== Sys2Proof/Machine/Ops.lean ====
section
/-! DEFINITION. The shared operations: the address check and the fault entry, the end of a completed step, the call
stack, the ALU frame of family 8, the block transfers, the draw, and the fetch. -/

namespace Sys2Proof.Machine

/-! ### The address check and the fault entry -/

/-- The cause of an access to 0xEA0 to 0xFFF (rules R32, R166). -/
def reservedCause : Access → FaultCause
  | .fetch => .fetchReserved
  | .data => .dataReserved

/-- The cause of an access above 0xFFF (rules R32, R166). -/
def rangeCause : Access → FaultCause
  | .fetch => .fetchRange
  | .data => .dataRange

/-- The check of rule R32 on one byte address: at or below 0xE9F legal, 0xEA0 to 0xFFF RESERVED, above RANGE. -/
def checkAddr (k : Access) (a : Nat) : Option FaultCause :=
  if a < Config.reservedBase then none
  else if a < Config.memSize then some (reservedCause k)
  else some (rangeCause k)

/-- All addresses of an access in their order; the first that fails gives the cause and the address (rule R32). -/
def checkAddrs (k : Access) : List Nat → Option (FaultCause × Nat)
  | [] => none
  | a :: as =>
    match checkAddr k a with
    | some c => some (c, a)
    | none => checkAddrs k as

/-- `raise Fault(c, a)` (rule R167): STATUS, FCAUSE and FADDR are written, nothing else changes, PC keeps the address
of the faulting instruction, and the step's outputs are not produced. -/
def takeFault (c : FaultCause) (a : Nat) (s : State) : State :=
  { s with status := .fault, fcause := c, faddr := BitVec.ofNat 17 a, outputs := none }

/-- An instruction that accesses memory: every address is checked before any effect (rules R32, R39). -/
def accessing (k : Access) (addrs : List Nat) (s done : State) : Result :=
  match checkAddrs k addrs with
  | some (c, a) => .next (takeFault c a s)
  | none => .next done

/-! ### The end of a completed step -/

/-- The one PC write of an instruction and the step's outputs (rules R13, R54, R165, R174). It is applied while PC
still holds pc0, the address of the instruction. -/
def complete (target : Word) (d : Diag) (s : State) : State :=
  { s with pc := target, outputs := some ⟨d, target == s.pc⟩ }

/-- The ordinary advance: `PC <- (pc0 + 2) mod 65536` (rules R13, R54). -/
def advance (s : State) : State := complete (s.pc + 2) .none s

/-- A skip: pc0 + 4 if the condition holds, else pc0 + 2 (`41_skips.md`). -/
def skipIf (cond : Bool) (s : State) : State := complete (if cond then s.pc + 4 else s.pc + 2) .none s

/-- The undefined instruction condition (rule R162): the diagnostic and the default advance, nothing else. -/
def undefinedInstruction (s : State) : State := complete (s.pc + 2) .undefinedInstruction s

/-! ### The call stack -/

/-- Push, for SP below 12: `STACK[SP] <- a; SP <- SP + 1` (rule R14). -/
def State.push (s : State) (a : Word) : State :=
  { s with stack := s.stack.setIfInBounds s.sp.toNat a, sp := s.sp + 1 }

/-- Pop, for SP above 0: `SP <- SP - 1`, the entry stays (rule R14). -/
def State.pop (s : State) : State := { s with sp := s.sp - 1 }

/-- The entry on top of the stack, `STACK[SP - 1]`, where that is one of the twelve. -/
def State.top (s : State) : Option Word := s.stack[s.sp.toNat - 1]?

/-! ### Family 8 -/

/-- The flag-free ALU operations: both operands read, one write, advance (rule R100). -/
def aluPlain (f : Byte → Byte → Byte) (x y : Reg) (s : State) : State :=
  advance (s.setReg x (f (s.reg x) (s.reg y)))

/-- The flag-writing ALU operations: both operands read first, VF written, THEN V[X] (rule R100, decision D11). -/
def aluFlag (flag f : Byte → Byte → Byte) (x y : Reg) (s : State) : State :=
  let a := s.reg x
  let b := s.reg y
  advance ((s.setReg VF (flag a b)).setReg x (f a b))

/-! ### Block transfers -/

/-- The memory after `MEM[I + i] <- V[i]` for i = 0 to n - 1, ascending (rule R151). -/
def storeBlock (s : State) : Nat → Memory
  | 0 => s.mem
  | n + 1 => (storeBlock s n).write (s.dataAddr n) (s.reg (regNo n))

/-- The registers after `V[i] <- MEM[I + i]` for i = 0 to n - 1, ascending (rule R152). -/
def loadBlock (s : State) : Nat → Vector Byte 16
  | 0 => s.v
  | n + 1 => (loadBlock s n).set (regNo n) (s.mem.read (s.dataAddr n))

/-! ### The display compositor -/

/-- `RowMask(b, x)` (rule R121): left by 56 - x for x at most 56, else logically right by x - 56. -/
def rowMask (b x : Byte) : PixelRow :=
  if x.toNat ≤ 56 then b.setWidth 64 <<< (56 - x.toNat) else b.setWidth 64 >>> (x.toNat - 56)

/-- `cnt` of rule R123: the rows r below n with y + r at most 31 (decision D8). -/
def drawnRows (y : Byte) (n : Nibble) : Nat := if 31 < y.toNat then 0 else min n.toNat (32 - y.toNat)

/-- The mask of sprite row r: the byte at I + r at column x (rules R121, R123). -/
def spriteMask (s : State) (x : Byte) (r : Nat) : PixelRow := rowMask (s.mem.read (s.dataAddr r)) x

/-- The framebuffer and the collision after the first cnt rows are drawn at (x, y), ascending; each row is tested
before its XOR (rules R123, R124). -/
def drawRows (s : State) (x y : Byte) : Nat → Vector PixelRow 32 × Bool
  | 0 => (s.fb, false)
  | r + 1 =>
    let before := drawRows s x y r
    let k := y.toNat + r
    let m := spriteMask s x r
    (before.1.setIfInBounds k (fbRow before.1 k ^^^ m), before.2 || fbRow before.1 k &&& m != 0)

/-! ### The fetch -/

/-- The word at PC, high byte first (rule R34). -/
def fetchWord (s : State) : Word := wordOfBytes (s.mem.read (s.fetchAddr 0)) (s.mem.read (s.fetchAddr 1))

/-- The fetch check: PC, then PC + 1 (rules R34, R168). -/
def fetchCheck (s : State) : Option (FaultCause × Nat) := checkAddrs .fetch [s.fetchAddr 0, s.fetchAddr 1]

/-- A step request to a core in STATUS = FAULT is ignored (rule R167, log entry 3). -/
def ignoredStep (s : State) : Result := .next s

/-- A step whose fetch faults (rules R34, R167). -/
def fetchFault (c : FaultCause) (a : Nat) (s : State) : Result := .next (takeFault c a s)

/-- A word stored where the next fetch reads it, high byte at PC (rule R34); nothing where PC has no legal fetch. -/
def placeFetchWord (s : State) (w : Word) : State :=
  match fetchCheck s with
  | some _ => s
  | none => { s with mem := (s.mem.write (s.fetchAddr 0) (highByte w)).write (s.fetchAddr 1) (lowByte w) }

end Sys2Proof.Machine
end

