-- ==== Sys2Proof/Machine/Alu.lean ====
section
/-! DEFINITION. The ALU group 8XYn: `43_alu.md` rules R101 to R110. -/

namespace Sys2Proof.Machine

/-- `LD Vx, Vy` (rule R101). -/
def execLdReg (x y : Reg) (s : State) : Result := .next (aluPlain (fun _ b => b) x y s)

/-- `OR Vx, Vy` (rule R102). -/
def execOrReg (x y : Reg) (s : State) : Result := .next (aluPlain (fun a b => a ||| b) x y s)

/-- `AND Vx, Vy` (rule R103). -/
def execAndReg (x y : Reg) (s : State) : Result := .next (aluPlain (fun a b => a &&& b) x y s)

/-- `XOR Vx, Vy` (rule R104). -/
def execXorReg (x y : Reg) (s : State) : Result := .next (aluPlain (fun a b => a ^^^ b) x y s)

/-- `ADD Vx, Vy` (rule R105). -/
def execAddReg (x y : Reg) (s : State) : Result := .next (aluFlag carryFlag (fun a b => a + b) x y s)

/-- `SUB Vx, Vy` (rule R106). -/
def execSubReg (x y : Reg) (s : State) : Result := .next (aluFlag notBorrowFlag (fun a b => a - b) x y s)

/-- `SHR Vx`: VY is neither read into the result nor written (rule R107). -/
def execShr (x y : Reg) (s : State) : Result :=
  .next (aluFlag (fun a _ => shiftRightFlag a) (fun a _ => a >>> 1) x y s)

/-- `SUBN Vx, Vy`: VY is the minuend (rule R108). -/
def execSubnReg (x y : Reg) (s : State) : Result :=
  .next (aluFlag (fun a b => notBorrowFlag b a) (fun a b => b - a) x y s)

/-- `SHL Vx`: VY is neither read into the result nor written (rule R109). -/
def execShl (x y : Reg) (s : State) : Result :=
  .next (aluFlag (fun a _ => shiftLeftFlag a) (fun a _ => a <<< 1) x y s)

/-- `UNDEF8` (rule R110). -/
def execUndef8 (_x _y : Reg) (_n : Nibble) (s : State) : Result := .next (undefinedInstruction s)

end Sys2Proof.Machine
end

