-- ==== Sys2Proof/Machine/Block.lean ====
section
/-! DEFINITION. Index arithmetic and block transfer: `46_index_block.md` rules R150 to R152. -/

namespace Sys2Proof.Machine

/-- `ADD I, Vx`: modulo 65536, no flag (rule R150, decision D16). -/
def execAddI (x : Reg) (s : State) : Result := .next (advance { s with i := s.i + zextByte (s.reg x) })

/-- `LD [I], Vx`: V0 to V(X - 1) to I upward, VX itself not stored, I unchanged (rule R151, decision D7). -/
def execStoreRegs (x : Reg) (s : State) : Result :=
  accessing .data (s.dataAddrs x.val) s (advance { s with mem := storeBlock s x.val })

/-- `LD Vx, [I]`: V0 to V(X - 1) from I upward, VX itself not loaded, I unchanged (rule R152, decision D7). -/
def execLoadRegs (x : Reg) (s : State) : Result :=
  accessing .data (s.dataAddrs x.val) s (advance { s with v := loadBlock s x.val })

end Sys2Proof.Machine
end

