-- ==== Sys2Proof/Machine/Control.lean ====
section
/-! DEFINITION. The program-counter and call-stack controller: `40_control_flow.md` rules R70 to R74. -/

namespace Sys2Proof.Machine

/-- `SYS nnn`: no operation, no diagnostic (rule R70). -/
def execSys (_nnn : Addr12) (s : State) : Result := .next (advance s)

/-- `RET`: pop into PC; on an empty stack the diagnostic only, PC unchanged (rules R71, R164). -/
def execRet (s : State) : Result :=
  if s.sp = 0 then .next (complete s.pc .stackUnderflow s)
  else
    match s.top with
    | some a => .next (complete a .none s.pop)
    | none => .fault .stackDepthOutOfRange

/-- `JP nnn` (rule R72). -/
def execJp (nnn : Addr12) (s : State) : Result := .next (complete (zextAddr nnn) .none s)

/-- `CALL nnn`: push pc0 + 2 and jump; at depth 12 the whole call is dropped (rules R73, R163). -/
def execCall (nnn : Addr12) (s : State) : Result :=
  if s.sp.toNat < Config.stackDepth then .next (complete (zextAddr nnn) .none (s.push (s.pc + 2)))
  else .next (advance s)

/-- `JP V0, nnn`: NNN + V0, 16 bits wide, not masked (rule R74, decision D6). -/
def execJpV0 (nnn : Addr12) (s : State) : Result :=
  .next (complete (zextAddr nnn + zextByte (s.reg V0)) .none s)

end Sys2Proof.Machine
end

