-- ==== Sys2Proof/Machine/Display.lean ====
section
/-! DEFINITION. The display compositor's instructions: `44_display.md` rules R122 and R123. -/

namespace Sys2Proof.Machine

/-- `CLS`: every framebuffer row 0 (rule R122). -/
def execCls (s : State) : Result := .next (advance { s with fb := Vector.replicate 32 0 })

/-- `DRW Vx, Vy, n`: the position is read before anything is written, every sprite byte of a drawn row is checked
before any effect, the drawn rows are XORed in, VF takes the collision (rule R123; decisions D8, D9, D10, D24). -/
def execDrw (x y : Reg) (n : Nibble) (s : State) : Result :=
  let cnt := drawnRows (s.reg y) n
  let drawn := drawRows s (s.reg x) (s.reg y) cnt
  accessing .data (s.dataAddrs cnt) s
    (advance (State.setReg { s with fb := drawn.1 } VF (flagByte drawn.2)))

end Sys2Proof.Machine
end

