-- ==== Sys2Proof/Machine/Immediate.lean ====
section
/-! DEFINITION. Immediate, index and random loads: `42_immediate_index_random.md` rules R90 to R93. -/

namespace Sys2Proof.Machine

/-- `LD Vx, nn` (rule R90). -/
def execLdImm (x : Reg) (nn : Byte) (s : State) : Result := .next (advance (s.setReg x nn))

/-- `ADD Vx, nn`: modulo 256, no flag (rule R91). -/
def execAddImm (x : Reg) (nn : Byte) (s : State) : Result := .next (advance (s.setReg x (s.reg x + nn)))

/-- `LD I, nnn` (rule R92). -/
def execLdI (nnn : Addr12) (s : State) : Result := .next (advance { s with i := zextAddr nnn })

/-- `RND Vx, nn`: exactly one byte is drawn from the random source (rule R93, log entry 1). -/
def execRnd (x : Reg) (nn : Byte) (s : State) : Result :=
  .next (advance (s.setReg x (s.nextDraw &&& nn)).countDraw)

end Sys2Proof.Machine
end

