-- ==== Sys2Proof/Machine/Skips.lean ====
section
/-! DEFINITION. The conditional skips: `41_skips.md` rules R80 to R83. -/

namespace Sys2Proof.Machine

/-- `SE Vx, nn` (rule R80). -/
def execSeImm (x : Reg) (nn : Byte) (s : State) : Result := .next (skipIf (s.reg x == nn) s)

/-- `SNE Vx, nn` (rule R81). -/
def execSneImm (x : Reg) (nn : Byte) (s : State) : Result := .next (skipIf (s.reg x != nn) s)

/-- `SE Vx, Vy` (rule R82); the low nibble is not inspected (rule R57). -/
def execSeReg (x y : Reg) (_n : Nibble) (s : State) : Result := .next (skipIf (s.reg x == s.reg y) s)

/-- `SNE Vx, Vy` (rule R83); the low nibble is not inspected (rule R57). -/
def execSneReg (x y : Reg) (_n : Nibble) (s : State) : Result := .next (skipIf (s.reg x != s.reg y) s)

end Sys2Proof.Machine
end

