-- ==== Sys2Proof/Machine/Unimplemented.lean ====
section
/-! DEFINITION. The keypad, timer, font and BCD encodings, recognised and without effect, and the undefined words of
families E and F: `45_key_timer_unimplemented.md` rules R130 to R139. -/

namespace Sys2Proof.Machine

/-- `SKP Vx`: never skips (rule R130). -/
def execSkp (_x : Reg) (s : State) : Result := .next (advance s)

/-- `SKNP Vx`: never skips (rule R131). -/
def execSknp (_x : Reg) (s : State) : Result := .next (advance s)

/-- `UNDEFE` (rule R132, resolution C4). -/
def execUndefE (_x : Reg) (_nn : Byte) (s : State) : Result := .next (undefinedInstruction s)

/-- `LD Vx, DT`: VX is not written (rule R133). -/
def execLdVxDT (_x : Reg) (s : State) : Result := .next (advance s)

/-- `LD Vx, K`: does not wait, VX is not written (rule R134). -/
def execLdVxK (_x : Reg) (s : State) : Result := .next (advance s)

/-- `LD DT, Vx`: there is no delay timer (rule R135). -/
def execLdDTVx (_x : Reg) (s : State) : Result := .next (advance s)

/-- `LD ST, Vx`: there is no sound timer (rule R136). -/
def execLdSTVx (_x : Reg) (s : State) : Result := .next (advance s)

/-- `LD F, Vx`: I is not written (rule R137). -/
def execLdFVx (_x : Reg) (s : State) : Result := .next (advance s)

/-- `LD B, Vx`: memory is not accessed, so no address is checked (rule R138). -/
def execLdBVx (_x : Reg) (s : State) : Result := .next (advance s)

/-- `UNDEFF` (rule R139). -/
def execUndefF (_x : Reg) (_nn : Byte) (s : State) : Result := .next (undefinedInstruction s)

end Sys2Proof.Machine
end

