-- ==== Sys2Proof/Machine/Step.lean ====
section
/-! DEFINITION. One step (`30_encoding.md` rule R54) and the host's placing of one instruction. -/

namespace Sys2Proof.Machine

/-- `Step` (rule R54): a faulted core ignores the request (rule R167); else the fetch is checked (rules R34, R168),
the word at PC decoded and executed. The instruction's own rule writes PC and the outputs: nothing is added around
it. -/
def step (s : State) : Host.Outcome State Fault Refusal :=
  match s.status with
  | .fault => ignoredStep s
  | .run =>
    match fetchCheck s with
    | some (c, a) => fetchFault c a s
    | none => exec (decodeWord (fetchWord s)) s

/-- The state with one table word placed where the next step fetches it (log entry 6). Only the two bytes at PC
change. A PC with no legal fetch has no such place and leaves the state as it is. -/
def State.withFetchWord (s : State) (nbits w : Nat) : State := placeFetchWord s (tableWord nbits w)

end Sys2Proof.Machine
end

