-- ==== Sys2Proof/Machine/HostPort.lean ====
section
/-! DEFINITION. The host's side of the machine (`70_reset_and_hazards.md`): the image load (rule R181) and the driver's
run loop (rule R183). The host acts only between steps (rule R184). -/

namespace Sys2Proof.Machine

/-- Image bytes from an address upward. -/
def writeImage : List Byte → Nat → Memory → Memory
  | [], _, m => m
  | b :: bs, a, m => writeImage bs (a + 1) (m.write a b)

/-- The image load: `MEM[0x200 + k] <- img[k]` for k below min(L, 3232); the excess is dropped (rule R181). -/
def State.loadImage (img : List Byte) (s : State) : State :=
  { s with mem := writeImage (img.take Config.maxImage) Config.progBase s.mem }

/-- Why a run ends. The first three are the reasons of rule R183. -/
inductive StopReason where
  /-- STATUS = FAULT after a step (rule R167). -/
  | fault
  /-- The step left PC unchanged (rule R165). -/
  | noProgress
  /-- MAX_STEPS steps were executed. -/
  | budget
  /-- Not a reason of the spec: the model itself stopped a step (log entry 4). SAFE. -/
  | modelStop
  deriving DecidableEq, Repr

/-- How a run ended: the steps executed, the reason, and the state after the last of them. -/
structure RunEnd where
  steps : Nat
  reason : StopReason
  final : State
  deriving DecidableEq, Repr

/-- `no_progress` of the step that produced a state (rules R19, R165). -/
def State.noProgress (s : State) : Bool :=
  match s.outputs with
  | some o => o.noProgress
  | none => false

/-- The driver's loop from its k-th step on, with `budget` steps left (rule R183; decision D14). A run entered with
STATUS = FAULT executes no step and, as the loop is written, ends with reason BUDGET. -/
def driverFrom : Nat → Nat → State → RunEnd
  | 0, k, s => ⟨k, .budget, s⟩
  | budget + 1, k, s =>
    match s.status with
    | .fault => ⟨k, .budget, s⟩
    | .run =>
      match step s with
      | .next t =>
        match t.status with
        | .fault => ⟨k + 1, .fault, t⟩
        | .run => if t.noProgress then ⟨k + 1, .noProgress, t⟩ else driverFrom budget (k + 1) t
      | .fault _ => ⟨k, .modelStop, s⟩
      | .refused _ => ⟨k, .modelStop, s⟩

/-- `Run(MAX_STEPS)` (rule R183). -/
def run (maxSteps : Nat) (s : State) : RunEnd := driverFrom maxSteps 0 s

end Sys2Proof.Machine
end

