-- ==== Sys2Proof/Safety.lean ====
section
/-! DEFINITION. The terms in which claims about the machine are stated: what an instruction leaves unchanged, the
machine's invariant (`10_state.md` rules R13, R17, R22; log entry 8), what a program cannot observe, and a safe run. -/

namespace Sys2Proof.Machine

/-! ### Frames -/

/-- The parts of the state that a frame speaks of. -/
inductive Part where
  | regs | index | pc | callStack | framebuffer | memory | faultRegs | outputs | draws
  deriving DecidableEq, Repr

/-- A part of the state is the same in two states. Memory is compared byte by byte through `Memory.read`, at every
address. -/
def Same : Part → State → State → Prop
  | .regs, s, t => ∀ r : Reg, t.reg r = s.reg r
  | .index, s, t => t.i = s.i
  | .pc, s, t => t.pc = s.pc
  | .callStack, s, t => t.sp = s.sp ∧ t.stack = s.stack
  | .framebuffer, s, t => t.fb = s.fb
  | .memory, s, t => ∀ a : Nat, t.mem.read a = s.mem.read a
  | .faultRegs, s, t => t.status = s.status ∧ t.fcause = s.fcause ∧ t.faddr = s.faddr
  | .outputs, s, t => t.outputs = s.outputs
  | .draws, s, t => t.draws = s.draws

/-- Every part but the named ones is the same in both states. -/
def OnlyChanges (parts : List Part) (s t : State) : Prop := ∀ p : Part, p ∉ parts → Same p s t

/-- The step completed and left PC at `target`, with diagnostic `d` (rules R13, R165, R174). -/
def EndsAt (target : Word) (d : Diag) (s t : State) : Prop :=
  t.pc = target ∧ t.outputs = some ⟨d, decide (target = s.pc)⟩

/-- The instruction completes: PC + 2, the given diagnostic, and nothing else changes. -/
def AdvancesOnly (i : Instr) (d : Diag) (s : State) : Prop :=
  ∃ t, exec i s = .next t ∧ EndsAt (s.pc + 2) d s t ∧ OnlyChanges [.pc, .outputs] s t

/-- The instruction completes: V[x] takes the byte, PC + 2, no diagnostic, and nothing else changes. -/
def WritesReg (i : Instr) (x : Reg) (b : Byte) (s : State) : Prop :=
  ∃ t, exec i s = .next t ∧ (∀ r : Reg, t.reg r = if r = x then b else s.reg r) ∧
    EndsAt (s.pc + 2) .none s t ∧ OnlyChanges [.regs, .pc, .outputs] s t

/-- The instruction completes: V[x] takes the byte, VF the flag, PC + 2, no diagnostic, and nothing else changes. -/
def WritesRegAndFlag (i : Instr) (x : Reg) (b flag : Byte) (s : State) : Prop :=
  ∃ t, exec i s = .next t ∧ (∀ r : Reg, t.reg r = if r = x then b else if r = VF then flag else s.reg r) ∧
    EndsAt (s.pc + 2) .none s t ∧ OnlyChanges [.regs, .pc, .outputs] s t

/-- The step took a fault: STATUS, FCAUSE and FADDR are written, no outputs are produced, and nothing else changes
(rule R167). -/
def Faulted (c : FaultCause) (a : Nat) (s t : State) : Prop :=
  t.status = .fault ∧ t.fcause = c ∧ t.faddr.toNat = a ∧ t.outputs = none ∧ OnlyChanges [.faultRegs, .outputs] s t

/-! ### The display, pixel by pixel -/

/-- Whether the n-row sprite at I, placed with its left top pixel at column x and row y, has a pixel in row r and
column c (rules R120, R121, R123): bit 7 of a sprite byte is its leftmost pixel, and rows and columns beyond the
framebuffer do not exist. -/
def spritePixel (s : State) (x y : Byte) (n : Nibble) (r : Fin 32) (c : Fin 64) : Bool :=
  decide (y.toNat ≤ r.val ∧ r.val < y.toNat + n.toNat ∧ x.toNat ≤ c.val ∧ c.val ≤ x.toNat + 7) &&
    (s.mem.read (s.i.toNat + (r.val - y.toNat))).getLsbD (7 - (c.val - x.toNat))

/-! ### The invariant -/

/-- The call stack: 0 ≤ SP ≤ 12, and every live entry is the address of a CALL plus 2 with the CALL at or below 0xE9E,
so it lies in 2 to 0xEA0 (rule R22). -/
abbrev StackInv (s : State) : Prop :=
  s.sp.toNat ≤ Config.stackDepth ∧
    ∀ k : Fin 12, k.val < s.sp.toNat → 2 ≤ (s.stack.get k).toNat ∧ (s.stack.get k).toNat ≤ Config.reservedBase

/-- PC: every PC that a step writes is at most 0x10FE (rule R13). -/
abbrev PcInv (s : State) : Prop := s.pc.toNat ≤ 0x10FE

/-- The fault registers are the reset values while the core runs; in a faulted core the cause fits the address and the
faulting step produced no outputs (rules R17, R166, R167). -/
abbrev FaultInv (s : State) : Prop :=
  match s.status with
  | .run => s.fcause = .none ∧ s.faddr = 0
  | .fault =>
    s.outputs = none ∧
      (((s.fcause = .fetchReserved ∨ s.fcause = .dataReserved) ∧
          Config.reservedBase ≤ s.faddr.toNat ∧ s.faddr.toNat < Config.memSize) ∨
        ((s.fcause = .fetchRange ∨ s.fcause = .dataRange) ∧
          Config.memSize ≤ s.faddr.toNat ∧ s.faddr.toNat ≤ 0x1000D))

/-- The invariant of the machine: what every step keeps. The conjunct on memory is the canonical form of the model's
list, DESIGN CHOICE (log entry 8); the others are rules R13, R17, R22. -/
def MachineInv (s : State) : Prop := StackInv s ∧ PcInv s ∧ s.mem.wf ∧ FaultInv s

/-! ### What a program cannot observe -/

/-- Two states that differ at most in stack entries at index SP and above (rule R14, decision D22), in memory bytes
of the reserved high region (rules R16, R22), in the step outputs (rule R19) and nowhere else. -/
def SameToProgram (s s' : State) : Prop :=
  (∀ r : Reg, s'.reg r = s.reg r) ∧ s'.i = s.i ∧ s'.pc = s.pc ∧ s'.sp = s.sp ∧
    (∀ k : Fin 12, k.val < s.sp.toNat → s'.stack.get k = s.stack.get k) ∧ s'.fb = s.fb ∧
    (∀ a : Nat, a < Config.reservedBase → s'.mem.read a = s.mem.read a) ∧
    s'.status = s.status ∧ s'.fcause = s.fcause ∧ s'.faddr = s.faddr ∧ s'.draws = s.draws

/-! ### Safe runs -/

/-- The core is not faulted: rule R167, "A faulted state is never a normal end of run". -/
def Safe (s : State) : Prop := s.status = .run

/-- No state on the first `n` steps from `s` is faulted, and the model stops none of them. -/
def SafeRun : Nat → State → Prop
  | 0, s => Safe s
  | n + 1, s => Safe s ∧ ∃ t, step s = .next t ∧ SafeRun n t

end Sys2Proof.Machine
end

