-- ==== Sys2Proof/Certificates/Slice0/Obligations.lean ====
section
/-! DEFINITION. The statements for the provers. Each docstring names the rule it formalises; where a clause rests on a
decision or an inference that the spec marks as its own (D<n>, "derived"), or on a log entry of this model, the
docstring says so and the statement's basis is 'derived'. -/

open Sys2Proof Sys2Proof.Machine

/-! ### Encoding -/

/-- Decoding the encoding of a well-formed instruction gives it back, with nothing left over, for all 38 rows and
every operand (rules R51, R52, R61). -/
def Obligations.DecodeOfEncode : Prop :=
  ∀ i : Instr, i.wf = true → decode (encode i) = .ok (i, [])

/-- Every one of the 65536 words decodes to a well-formed instruction whose encoding is that word: no bit is dropped
and no word is rejected (rule R64). -/
def Obligations.EveryWordIsOneInstruction : Prop :=
  ∀ w : Word, (decodeWord w).wf = true ∧ encodeWord (decodeWord w) = w

/-- The decoder follows the opcode map: the first row of the table that matches a word is the row of the instruction it
decodes to (rule R61). -/
def Obligations.DecoderFollowsOpcodeMap : Prop :=
  ∀ w : Word, (opcodeTable.find? (fun row => row.matches w)).map (fun row => row.priority) =
    some (decodeWord w).priority

/-- Which words are undefined instructions (rule R59): exactly those of families 8, E and F whose secondary field is
not listed. -/
def Obligations.UndefinedWordsAreExactly : Prop :=
  ∀ w : Word,
    ((∃ x y n, decodeWord w = .undef8 x y n) ↔
      w.extractLsb' 12 4 = 0x8#4 ∧ w.extractLsb' 0 4 ∈ [0x8#4, 0x9#4, 0xA#4, 0xB#4, 0xC#4, 0xD#4, 0xF#4]) ∧
    ((∃ x nn, decodeWord w = .undefE x nn) ↔
      w.extractLsb' 12 4 = 0xE#4 ∧ w.extractLsb' 0 8 ∉ [0x9E#8, 0xA1#8]) ∧
    ((∃ x nn, decodeWord w = .undefF x nn) ↔
      w.extractLsb' 12 4 = 0xF#4 ∧
        w.extractLsb' 0 8 ∉ [0x07#8, 0x0A#8, 0x15#8, 0x18#8, 0x1E#8, 0x29#8, 0x33#8, 0x55#8, 0x65#8])

/-- Words written out from the spec's own examples decode to the instructions they stand for. A sanity statement. -/
def Obligations.SampleWordsDecode : Prop :=
  decodeWord 0x00E0 = .cls ∧ decodeWord 0x01E0 = .sys 0x1E0 ∧ decodeWord 0x2204 = .call 0x204 ∧
    decodeWord 0x5AB7 = .seReg 10 11 7 ∧ decodeWord 0x8FE5 = .subReg 15 14 ∧ decodeWord 0xD125 = .drw 1 2 5 ∧
    decodeWord 0xE59E = .skp 5 ∧ decodeWord 0xF255 = .storeRegs 2 ∧ decodeWord 0xF0FF = .undefF 0 0xFF

/-! ### The step -/

/-- A step runs the decoded instruction: where a running core can fetch, and the two bytes at PC (the high byte first)
decode to i, the step is exec of i at that very state. Nothing is added around exec: the instruction's own rule writes
PC and the outputs (rules R34, R54). -/
def Obligations.StepRunsDecodedInstruction : Prop :=
  ∀ (s : State) (i : Instr), s.status = .run → s.pc.toNat ≤ 0xE9E →
    decode [s.mem.read s.pc.toNat, s.mem.read (s.pc.toNat + 1)] = .ok (i, []) → step s = exec i s

/-- A fetch outside the legal window faults (rules R34, R166; the faults are decisions D3, D4, D5): PC = 0xE9F on its
second byte, PC in 0xEA0 to 0xFFF as RESERVED, PC above as RANGE. Nothing but the fault registers changes. -/
def Obligations.FetchOutsideWindowFaults : Prop :=
  ∀ s : State, s.status = .run →
    (s.pc.toNat = 0xE9F → ∃ t, step s = .next t ∧ Faulted .fetchReserved 0xEA0 s t) ∧
    (0xEA0 ≤ s.pc.toNat → s.pc.toNat ≤ 0xFFF → ∃ t, step s = .next t ∧ Faulted .fetchReserved s.pc.toNat s t) ∧
    (0x1000 ≤ s.pc.toNat → ∃ t, step s = .next t ∧ Faulted .fetchRange s.pc.toNat s t)

/-- A step request to a faulted core is ignored (rule R167, decision D5; that the model answers a next state is log
entry 3). -/
def Obligations.FaultedCoreIgnoresSteps : Prop :=
  ∀ s : State, s.status = .fault → step s = .next s

/-- Faults are precise (rules R39, R167, decision D5): a step of a running core either leaves the fault registers alone,
or it faults, with a cause, and then changes nothing but the fault registers and the outputs. -/
def Obligations.StepFaultsArePrecise : Prop :=
  ∀ s t : State, s.status = .run → step s = .next t →
    (Same .faultRegs s t ∧ t.outputs ≠ none) ∨
      (t.fcause ≠ .none ∧ 0xEA0 ≤ t.faddr.toNat ∧ Faulted t.fcause t.faddr.toNat s t)

/-- The machine's invariant is kept by every step from every state that has it, reachable or not: the stack depth and
the live return addresses (rule R22), PC at most 0x10FE (rule R13), the fault registers (rules R17, R166, R167, decision
D5), and the canonical form of the memory list, which is no rule of the spec but the model's choice (log entry 8). -/
def Obligations.StepKeepsInvariant : Prop :=
  ∀ s t : State, MachineInv s → step s = .next t → MachineInv t

/-- The invariant holds after reset (rule R21), and an image load keeps it (rule R181). Two clauses are the model's: the
canonical form of the memory list (log entry 8), and the limit of the entry point to 0x10FE, the bound of rule R13 on a
PC that a step writes (log entry 7). Decision D15 allows any 16-bit entry point; for 0x10FF to 0xFFFF nothing is claimed
here. -/
def Obligations.ResetAndLoadHaveInvariant : Prop :=
  MachineInv State.reset ∧ (∀ e : Word, e.toNat ≤ 0x10FE → MachineInv (State.resetAt e)) ∧
    ∀ (s : State) (img : List Byte), MachineInv s → MachineInv (s.loadImage img)

/-- The machine never gets stuck (rules R59, R64, R160): from every state with the invariant, the step answers a next
state; no instruction is refused and the model's own stop (log entry 4) is not reached. The next state has the
invariant again (rules R13, R17, R22; its canonical form of the memory list is the model's choice, log entry 8). -/
def Obligations.StepNeverStuck : Prop :=
  ∀ s : State, MachineInv s → ∃ t, step s = .next t ∧ MachineInv t

/-- What a program cannot observe (rules R14, R16, R19, decisions D2, D3, D22): stack entries at SP and above, the bytes
of the reserved region and the step outputs never influence anything else. Two states that differ only in them step to
states that differ only in them. -/
def Obligations.HiddenStateStaysHidden : Prop :=
  ∀ s s' t : State, s.sp.toNat ≤ 12 → SameToProgram s s' → step s = .next t →
    ∃ t', step s' = .next t' ∧ SameToProgram t t'

/-- The host's placing of one instruction word: the next step of a running core with a legal PC runs exactly it, and no
other byte changes (log entry 6). -/
def Obligations.PlacedWordIsExecuted : Prop :=
  ∀ (s : State) (w : Word), s.status = .run → s.pc.toNat ≤ 0xE9E →
    step (s.withFetchWord 16 w.toNat) = exec (decodeWord w) (s.withFetchWord 16 w.toNat) ∧
      OnlyChanges [.memory] s (s.withFetchWord 16 w.toNat) ∧
      ∀ a : Nat, a ≠ s.pc.toNat → a ≠ s.pc.toNat + 1 → (s.withFetchWord 16 w.toNat).mem.read a = s.mem.read a

/-! ### Reset, image load, the driver -/

/-- Reset (rule R21; STATUS, FCAUSE and FADDR are decision D5, the entry point D15; the model's own fields are log
entries 1 and 5): every piece of state is zero and PC is the entry point, by default 0x200. -/
def Obligations.ResetZeroesEverything : Prop :=
  State.reset = State.resetAt 0x200 ∧
    ∀ e : Word, (∀ r : Reg, (State.resetAt e).reg r = 0) ∧ (State.resetAt e).i = 0 ∧ (State.resetAt e).pc = e ∧
      (State.resetAt e).sp = 0 ∧ (∀ k : Fin 12, (State.resetAt e).stack.get k = 0) ∧
      (∀ k : Fin 32, (State.resetAt e).fb.get k = 0) ∧ (∀ a : Nat, (State.resetAt e).mem.read a = 0) ∧
      (State.resetAt e).status = .run ∧ (State.resetAt e).fcause = .none ∧ (State.resetAt e).faddr = 0

/-- The image load (rule R181): image byte k goes to 0x200 + k for k below min(L, 3232), every other byte and every
other part of the state is as before. -/
def Obligations.ImageLoadsAt0x200 : Prop :=
  ∀ (s : State) (img : List Byte),
    (∀ (k : Nat) (h : k < img.length), k < 3232 → (s.loadImage img).mem.read (0x200 + k) = img[k]) ∧
    (∀ a : Nat, (∀ k : Nat, k < img.length → k < 3232 → a ≠ 0x200 + k) → (s.loadImage img).mem.read a = s.mem.read a) ∧
    OnlyChanges [.memory] s (s.loadImage img)

/-- The driver's run (rule R183, decision D14), from a running core with the invariant: at most MAX_STEPS steps are
executed, the final state is the state after them, the reason says how the last step ended, no earlier step ended the
run, and the model's own stop (log entry 11) is never the reason. BUDGET is the reason only where the last step, too,
moved PC: the no-progress test is made before the budget test. -/
def Obligations.RunEndsAsDriverSays : Prop :=
  ∀ (maxSteps : Nat) (s : State), MachineInv s → s.status = .run →
    (run maxSteps s).steps ≤ maxSteps ∧
      Sys2Proof.core.run (run maxSteps s).steps s = .next (run maxSteps s).final ∧
      (∀ (k : Nat) (u : State), 0 < k → k < (run maxSteps s).steps → Sys2Proof.core.run k s = .next u →
        u.status = .run ∧ u.noProgress = false) ∧
      (((run maxSteps s).reason = .fault ∧ (run maxSteps s).final.status = .fault) ∨
        ((run maxSteps s).reason = .noProgress ∧ (run maxSteps s).final.status = .run ∧
          (run maxSteps s).final.noProgress = true) ∨
        ((run maxSteps s).reason = .budget ∧ (run maxSteps s).final.status = .run ∧ (run maxSteps s).steps = maxSteps ∧
          (0 < (run maxSteps s).steps → (run maxSteps s).final.noProgress = false)))

/-! ### Memory -/

/-- `MemRead` and `MemWrite` (rule R33): a byte reads as the value written last, every other byte as before; a byte
never written reads as the reset value. -/
def Obligations.ReadReturnsLastWrite : Prop :=
  (∀ a : Nat, Memory.read [] a = 0) ∧
    ∀ (m : Memory) (a k : Nat) (b : Byte), (m.write a b).read k = if k = a then b else m.read k

/-- Only FX55 writes memory, only inside the legal window, and only at I to I + X - 1 (rules R30, R32, R40). -/
def Obligations.OnlyBlockStoreWritesMemory : Prop :=
  ∀ (i : Instr) (s t : State) (a : Nat), exec i s = .next t → t.mem.read a ≠ s.mem.read a →
    a < 0xEA0 ∧ ∃ (x k : Reg), i = .storeRegs x ∧ k.val < x.val ∧ a = s.dataAddr k.val

/-! ### Control transfer -/

/-- `SYS nnn` (rule R70): PC + 2 and nothing else, no diagnostic; its words are 0NNN except 00E0 and 00EE. -/
def Obligations.SysOnlyAdvances : Prop :=
  ∀ (nnn : Addr12) (s : State), (nnn ≠ 0x0E0 → nnn ≠ 0x0EE → decodeWord (wordNNN 0x0 nnn) = .sys nnn) ∧
    AdvancesOnly (.sys nnn) .none s

/-- `RET` (rule R71): on an empty stack nothing but the outputs changes, diagnostic STACK_UNDERFLOW; otherwise
the top entry goes to PC with no further + 2, SP goes down by one and the entries stay. -/
def Obligations.RetPopsIntoPc : Prop :=
  decodeWord 0x00EE = .ret ∧ ∀ s : State,
    (s.sp = 0 → ∃ t, exec .ret s = .next t ∧ EndsAt s.pc .stackUnderflow s t ∧ OnlyChanges [.outputs] s t) ∧
    (∀ k : Fin 12, s.sp.toNat = k.val + 1 → ∃ t, exec .ret s = .next t ∧ EndsAt (s.stack.get k) .none s t ∧
      t.sp.toNat = k.val ∧ t.stack = s.stack ∧ OnlyChanges [.pc, .callStack, .outputs] s t)

/-- `RET` with SP above 12 stops the model under its own name: a state outside rule R22's invariant (log entry 4, the
model's choice). -/
def Obligations.RetAboveDepth12Stops : Prop :=
  ∀ s : State, 12 < s.sp.toNat → exec .ret s = .fault .stackDepthOutOfRange

/-- `JP nnn` (rule R72): PC := NNN, zero-extended; nothing else changes. -/
def Obligations.JpReplacesPc : Prop :=
  ∀ (nnn : Addr12) (s : State), decodeWord (wordNNN 0x1 nnn) = .jp nnn ∧
    ∃ t, exec (.jp nnn) s = .next t ∧ EndsAt (BitVec.ofNat 16 nnn.toNat) .none s t ∧ OnlyChanges [.pc, .outputs] s t

/-- `CALL nnn` (rules R73, R163): below depth 12 it pushes pc0 + 2 and jumps; at depth 12 the whole call is dropped,
PC + 2, no diagnostic, and the twelve return addresses stay. -/
def Obligations.CallPushesOrIsDropped : Prop :=
  ∀ (nnn : Addr12) (s : State), decodeWord (wordNNN 0x2 nnn) = .call nnn ∧
    (∀ k : Fin 12, s.sp.toNat = k.val → ∃ t, exec (.call nnn) s = .next t ∧
      EndsAt (BitVec.ofNat 16 nnn.toNat) .none s t ∧ t.sp.toNat = k.val + 1 ∧ t.stack.get k = s.pc + 2 ∧
      (∀ j : Fin 12, j ≠ k → t.stack.get j = s.stack.get j) ∧ OnlyChanges [.pc, .callStack, .outputs] s t) ∧
    (s.sp = 12 → AdvancesOnly (.call nnn) .none s)

/-- `JP V0, nnn` (rule R74; `PC := NNN + V0` and its 16-bit sum are decision D6): not masked to 12 bits, never wraps. -/
def Obligations.JpV0AddsOffset : Prop :=
  ∀ (nnn : Addr12) (s : State), decodeWord (wordNNN 0xB nnn) = .jpV0 nnn ∧
    ∃ t, exec (.jpV0 nnn) s = .next t ∧ t.pc.toNat = nnn.toNat + (s.reg V0).toNat ∧
      EndsAt (BitVec.ofNat 16 (nnn.toNat + (s.reg V0).toNat)) .none s t ∧ OnlyChanges [.pc, .outputs] s t

/-- A call and its return (the document's fourth property, S4): from a call at PC = p below depth 12 to an address that
holds a RET, two steps leave PC = p + 2, the depth as before and the older return addresses as before. -/
def Obligations.CallThenRetComesBack : Prop :=
  ∀ (s : State) (nnn : Addr12), s.status = .run → s.sp.toNat < 12 → s.pc.toNat ≤ 0xE9E → nnn.toNat ≤ 0xE9E →
    decodeWord (wordOfBytes (s.mem.read s.pc.toNat) (s.mem.read (s.pc.toNat + 1))) = .call nnn →
    s.mem.read nnn.toNat = 0x00 → s.mem.read (nnn.toNat + 1) = 0xEE →
    ∃ t u, step s = .next t ∧ step t = .next u ∧ u.pc = s.pc + 2 ∧ u.sp = s.sp ∧
      (∀ k : Fin 12, k.val < s.sp.toNat → u.stack.get k = s.stack.get k) ∧
      OnlyChanges [.pc, .callStack, .outputs] s u

/-- Live return addresses are safe (rule R44): every instruction keeps each of them that is still live afterwards, only
CALL and RET touch the stack, and only CALL makes a new entry. -/
def Obligations.LiveReturnAddressesKept : Prop :=
  ∀ (i : Instr) (s t : State), exec i s = .next t →
    (∀ k : Fin 12, k.val < s.sp.toNat → k.val < t.sp.toNat → t.stack.get k = s.stack.get k) ∧
    ((∀ nnn, i ≠ .call nnn) → t.stack = s.stack ∧ (i ≠ .ret → t.sp = s.sp))

/-- Where PC goes (rule R13, resolution C7): by + 2, by + 4 from a skip only, by replacement from JP, CALL, RET and
JP V0 only, and it stays at a fault. -/
def Obligations.PcMovesByInstructionKind : Prop :=
  ∀ (i : Instr) (s t : State), exec i s = .next t →
    t.pc = s.pc + 2 ∨
      (t.pc = s.pc + 4 ∧ ((∃ x nn, i = .seImm x nn) ∨ (∃ x nn, i = .sneImm x nn) ∨ (∃ x y n, i = .seReg x y n) ∨
        ∃ x y n, i = .sneReg x y n)) ∨
      ((∃ nnn, i = .jp nnn) ∨ (∃ nnn, i = .call nnn) ∨ i = .ret ∨ ∃ nnn, i = .jpV0 nnn) ∨
      (t.pc = s.pc ∧ t.status = .fault)

/-! ### Skips -/

/-- `SE Vx, nn` and `SNE Vx, nn` (rules R80, R81): + 4 if the condition holds, else + 2; nothing else changes. -/
def Obligations.ImmediateSkips : Prop :=
  ∀ (x : Reg) (nn : Byte) (s : State),
    decodeWord (wordXNN 0x3 x nn) = .seImm x nn ∧ decodeWord (wordXNN 0x4 x nn) = .sneImm x nn ∧
    (∃ t, exec (.seImm x nn) s = .next t ∧ EndsAt (if s.reg x = nn then s.pc + 4 else s.pc + 2) .none s t ∧
      OnlyChanges [.pc, .outputs] s t) ∧
    (∃ t, exec (.sneImm x nn) s = .next t ∧ EndsAt (if s.reg x = nn then s.pc + 2 else s.pc + 4) .none s t ∧
      OnlyChanges [.pc, .outputs] s t)

/-- `SE Vx, Vy` and `SNE Vx, Vy` (rules R82, R83), for every value of the nibble N, which is not inspected (rule R57 and
decision D12, an inference the spec marks). -/
def Obligations.RegisterSkips : Prop :=
  ∀ (x y : Reg) (n : Nibble) (s : State),
    decodeWord (wordXYN 0x5 x y n) = .seReg x y n ∧ decodeWord (wordXYN 0x9 x y n) = .sneReg x y n ∧
    (∃ t, exec (.seReg x y n) s = .next t ∧ EndsAt (if s.reg x = s.reg y then s.pc + 4 else s.pc + 2) .none s t ∧
      OnlyChanges [.pc, .outputs] s t) ∧
    (∃ t, exec (.sneReg x y n) s = .next t ∧ EndsAt (if s.reg x = s.reg y then s.pc + 2 else s.pc + 4) .none s t ∧
      OnlyChanges [.pc, .outputs] s t)

/-! ### Immediate, index and random loads -/

/-- `LD Vx, nn` (rule R90): VX := NN, PC + 2, and nothing else changes. -/
def Obligations.LdImmediate : Prop :=
  ∀ (x : Reg) (nn : Byte) (s : State), decodeWord (wordXNN 0x6 x nn) = .ldImm x nn ∧ WritesReg (.ldImm x nn) x nn s

/-- `ADD Vx, nn` (rule R91): VX := (VX + NN) mod 256, VF not written as a flag, PC + 2, and nothing else changes. -/
def Obligations.AddImmediateWraps : Prop :=
  ∀ (x : Reg) (nn : Byte) (s : State), decodeWord (wordXNN 0x7 x nn) = .addImm x nn ∧
    WritesReg (.addImm x nn) x (BitVec.ofNat 8 (((s.reg x).toNat + nn.toNat) % 256)) s

/-- `LD I, nnn` (rule R92): all 16 bits of I are replaced by NNN, PC + 2, and nothing else changes. -/
def Obligations.LdIndex : Prop :=
  ∀ (nnn : Addr12) (s : State), decodeWord (wordNNN 0xA nnn) = .ldI nnn ∧
    ∃ t, exec (.ldI nnn) s = .next t ∧ t.i.toNat = nnn.toNat ∧ EndsAt (s.pc + 2) .none s t ∧
      OnlyChanges [.index, .pc, .outputs] s t

/-- `RND Vx, nn` (rule R93): the next free byte, whatever it is, ANDed with NN; exactly one byte is drawn. The sequence
of draws is a free value of the model (log entry 1, decision D13). -/
def Obligations.RndMasksOneDraw : Prop :=
  ∀ (x : Reg) (nn : Byte) (s : State), decodeWord (wordXNN 0xC x nn) = .rnd x nn ∧
    ∃ t, exec (.rnd x nn) s = .next t ∧ (∀ r : Reg, t.reg r = if r = x then Config.rnd s.draws &&& nn else s.reg r) ∧
      t.reg x &&& ~~~nn = 0 ∧ t.draws = s.draws + 1 ∧ EndsAt (s.pc + 2) .none s t ∧
      OnlyChanges [.regs, .draws, .pc, .outputs] s t

/-- No other instruction draws a byte (rules R20, R93; the counter is log entry 1). -/
def Obligations.OnlyRndDraws : Prop :=
  ∀ (i : Instr) (s t : State), exec i s = .next t → (∀ x nn, i ≠ .rnd x nn) → t.draws = s.draws

/-! ### ALU -/

/-- `LD`, `OR`, `AND`, `XOR Vx, Vy` (rules R101 to R104): VX takes VY, or the bitwise result, VF is not written as a
flag, PC + 2, and nothing else changes. -/
def Obligations.AluCopyAndLogic : Prop :=
  ∀ (x y : Reg) (s : State),
    decodeWord (wordXYN 0x8 x y 0x0) = .ldReg x y ∧ decodeWord (wordXYN 0x8 x y 0x1) = .orReg x y ∧
    decodeWord (wordXYN 0x8 x y 0x2) = .andReg x y ∧ decodeWord (wordXYN 0x8 x y 0x3) = .xorReg x y ∧
    WritesReg (.ldReg x y) x (s.reg y) s ∧ WritesReg (.orReg x y) x (s.reg x ||| s.reg y) s ∧
    WritesReg (.andReg x y) x (s.reg x &&& s.reg y) s ∧ WritesReg (.xorReg x y) x (s.reg x ^^^ s.reg y) s

/-- `ADD Vx, Vy` for X other than F (rule R105): VF := 1 if the sum is above 255 else 0, VX := the sum modulo 256, from
the old operands (Y = F reads the old VF). X = F is FlagIsLostWhenXIsF. -/
def Obligations.AddSetsCarry : Prop :=
  ∀ (x y : Reg) (s : State), decodeWord (wordXYN 0x8 x y 0x4) = .addReg x y ∧
    (x ≠ VF → WritesRegAndFlag (.addReg x y) x (BitVec.ofNat 8 (((s.reg x).toNat + (s.reg y).toNat) % 256))
      (if (s.reg x).toNat + (s.reg y).toNat > 255 then 1 else 0) s)

/-- `SUB Vx, Vy` for X other than F (rule R106): VF := 0 if VY > VX (borrow) else 1, VX := (VX - VY) mod 256. -/
def Obligations.SubSetsNotBorrow : Prop :=
  ∀ (x y : Reg) (s : State), decodeWord (wordXYN 0x8 x y 0x5) = .subReg x y ∧
    (x ≠ VF → WritesRegAndFlag (.subReg x y) x (BitVec.ofInt 8 (((s.reg x).toNat : Int) - (s.reg y).toNat))
      (if (s.reg y).toNat > (s.reg x).toNat then 0 else 1) s)

/-- `SHR Vx` for X other than F (rule R107): VF := bit 0 of VX, VX := VX / 2; VY is not used. -/
def Obligations.ShrShiftsOutBit0 : Prop :=
  ∀ (x y : Reg) (s : State), decodeWord (wordXYN 0x8 x y 0x6) = .shr x y ∧
    (x ≠ VF → WritesRegAndFlag (.shr x y) x (BitVec.ofNat 8 ((s.reg x).toNat / 2))
      (BitVec.ofNat 8 ((s.reg x).toNat % 2)) s)

/-- `SUBN Vx, Vy` for X other than F (rule R108): VF := 0 if VX > VY (borrow) else 1, VX := (VY - VX) mod 256. -/
def Obligations.SubnSetsNotBorrow : Prop :=
  ∀ (x y : Reg) (s : State), decodeWord (wordXYN 0x8 x y 0x7) = .subnReg x y ∧
    (x ≠ VF → WritesRegAndFlag (.subnReg x y) x (BitVec.ofInt 8 (((s.reg y).toNat : Int) - (s.reg x).toNat))
      (if (s.reg x).toNat > (s.reg y).toNat then 0 else 1) s)

/-- `SHL Vx` for X other than F (rule R109): VF := bit 7 of VX, VX := 2 VX mod 256; VY is not used. -/
def Obligations.ShlShiftsOutBit7 : Prop :=
  ∀ (x y : Reg) (s : State), decodeWord (wordXYN 0x8 x y 0xE) = .shl x y ∧
    (x ≠ VF → WritesRegAndFlag (.shl x y) x (BitVec.ofNat 8 (2 * (s.reg x).toNat % 256))
      (BitVec.ofNat 8 ((s.reg x).toNat / 128)) s)

/-- The five flag-writing operations with X = F (rule R100 case 3, decision D11): VF ends as the result, the flag is
lost, PC + 2, and nothing else changes. -/
def Obligations.FlagIsLostWhenXIsF : Prop :=
  ∀ (y : Reg) (s : State),
    WritesReg (.addReg VF y) VF (BitVec.ofNat 8 (((s.reg VF).toNat + (s.reg y).toNat) % 256)) s ∧
    WritesReg (.subReg VF y) VF (BitVec.ofInt 8 (((s.reg VF).toNat : Int) - (s.reg y).toNat)) s ∧
    WritesReg (.shr VF y) VF (BitVec.ofNat 8 ((s.reg VF).toNat / 2)) s ∧
    WritesReg (.subnReg VF y) VF (BitVec.ofInt 8 (((s.reg y).toNat : Int) - (s.reg VF).toNat)) s ∧
    WritesReg (.shl VF y) VF (BitVec.ofNat 8 (2 * (s.reg VF).toNat % 256)) s

/-- The arithmetic identities of rule R111 (8), each for X other than F, which the spec marks as derived: result and
flag together lose nothing of the exact value. -/
def Obligations.AluIdentities : Prop :=
  ∀ (x y : Reg) (s : State), x ≠ VF →
    (∃ t, exec (.addReg x y) s = .next t ∧ (t.reg x).toNat + 256 * (t.reg VF).toNat = (s.reg x).toNat + (s.reg y).toNat) ∧
    (∃ t, exec (.subReg x y) s = .next t ∧
      (t.reg x).toNat + (s.reg y).toNat + 256 * (t.reg VF).toNat = (s.reg x).toNat + 256) ∧
    (∃ t, exec (.subnReg x y) s = .next t ∧
      (t.reg x).toNat + (s.reg x).toNat + 256 * (t.reg VF).toNat = (s.reg y).toNat + 256) ∧
    (∃ t, exec (.shr x y) s = .next t ∧ 2 * (t.reg x).toNat + (t.reg VF).toNat = (s.reg x).toNat) ∧
    (∃ t, exec (.shl x y) s = .next t ∧ (t.reg x).toNat + 256 * (t.reg VF).toNat = 2 * (s.reg x).toNat)

/-- The undefined instructions (rules R110, R132, R139): diagnostic UNDEFINED_INSTRUCTION, PC + 2, and nothing
else, for every undefined word. -/
def Obligations.UndefinedOnlyAdvances : Prop :=
  ∀ (x y : Reg) (n : Nibble) (nn : Byte) (s : State),
    (n ∈ [0x8#4, 0x9#4, 0xA#4, 0xB#4, 0xC#4, 0xD#4, 0xF#4] → decodeWord (wordXYN 0x8 x y n) = .undef8 x y n) ∧
    (nn ∉ [0x9E#8, 0xA1#8] → decodeWord (wordXNN 0xE x nn) = .undefE x nn) ∧
    (nn ∉ [0x07#8, 0x0A#8, 0x15#8, 0x18#8, 0x1E#8, 0x29#8, 0x33#8, 0x55#8, 0x65#8] →
      decodeWord (wordXNN 0xF x nn) = .undefF x nn) ∧
    AdvancesOnly (.undef8 x y n) .undefinedInstruction s ∧ AdvancesOnly (.undefE x nn) .undefinedInstruction s ∧
    AdvancesOnly (.undefF x nn) .undefinedInstruction s

/-- Who writes VF (rule R11, resolution C2): an instruction that changes VF is one of the six flag writers, or it names
F as its destination X, or it is none at all. -/
def Obligations.OnlySixWriteVfAsFlag : Prop :=
  ∀ (i : Instr) (s t : State), exec i s = .next t → t.reg VF ≠ s.reg VF →
    (∃ x y, i = .addReg x y) ∨ (∃ x y, i = .subReg x y) ∨ (∃ x y, i = .shr x y) ∨ (∃ x y, i = .subnReg x y) ∨
      (∃ x y, i = .shl x y) ∨ (∃ x y n, i = .drw x y n) ∨ (∃ nn, i = .ldImm VF nn) ∨ (∃ nn, i = .addImm VF nn) ∨
      (∃ y, i = .ldReg VF y) ∨ (∃ y, i = .orReg VF y) ∨ (∃ y, i = .andReg VF y) ∨ (∃ y, i = .xorReg VF y) ∨
      ∃ nn, i = .rnd VF nn

/-! ### Display -/

/-- `CLS` (rule R122): every row 0, VF not written, nothing else changes. -/
def Obligations.ClsClearsFramebuffer : Prop :=
  decodeWord 0x00E0 = .cls ∧ ∀ s : State, ∃ t, exec .cls s = .next t ∧ (∀ r : Fin 32, t.fb.get r = 0) ∧
    EndsAt (s.pc + 2) .none s t ∧ OnlyChanges [.framebuffer, .pc, .outputs] s t

/-- The row mask, bit by bit (rule R121, which the spec marks as derived, and decision D9): the pixel in column c is bit
7 - (c - x) of the sprite byte where x ≤ c ≤ x + 7, else 0; columns beyond 63 are lost. -/
def Obligations.RowMaskPlacesByte : Prop :=
  ∀ (b x : Byte) (c : Fin 64),
    (rowMask b x).getLsbD (63 - c.val) =
      (decide (x.toNat ≤ c.val ∧ c.val ≤ x.toNat + 7) && b.getLsbD (7 - (c.val - x.toNat)))

/-- `DRW Vx, Vy, n` (rules R120 to R124; clipping and VF = 0 without collision are decisions D8, D9, D10, D24): where
every sprite byte of a row inside the framebuffer is in the legal window, each pixel is XORed with the sprite's pixel
there, VF is 1 exactly if a lit pixel lay under a sprite pixel, and nothing else changes. -/
def Obligations.DrwXorsSprite : Prop :=
  ∀ (x y : Reg) (n : Nibble) (s : State), decodeWord (wordXYN 0xD x y n) = .drw x y n ∧
    ((∀ r : Nat, r < n.toNat → (s.reg y).toNat + r ≤ 31 → s.dataAddr r ≤ 0xE9F) →
      ∃ t, exec (.drw x y n) s = .next t ∧
        (∀ (r : Fin 32) (c : Fin 64), t.pixel r c = (s.pixel r c ^^ spritePixel s (s.reg x) (s.reg y) n r c)) ∧
        (t.reg VF = 0 ∨ t.reg VF = 1) ∧
        (t.reg VF = 1 ↔ ∃ r c, s.pixel r c = true ∧ spritePixel s (s.reg x) (s.reg y) n r c = true) ∧
        (∀ r : Reg, r ≠ VF → t.reg r = s.reg r) ∧ EndsAt (s.pc + 2) .none s t ∧
        OnlyChanges [.regs, .framebuffer, .pc, .outputs] s t)

/-- Drawing twice (the document's seventh property, S7, and rule R123): with the position not held in VF, the same draw
again restores the framebuffer; and from an empty framebuffer the second draw reports a collision exactly if the sprite
has a pixel inside the framebuffer (log entry 10). -/
def Obligations.DrawTwiceRestores : Prop :=
  ∀ (x y : Reg) (n : Nibble) (s t u : State), x ≠ VF → y ≠ VF → s.status = .run →
    exec (.drw x y n) s = .next t → t.status = .run → exec (.drw x y n) t = .next u →
    u.status = .run ∧ u.fb = s.fb ∧
      ((∀ r : Fin 32, s.fb.get r = 0) →
        (u.reg VF = 1 ↔ ∃ r c, spritePixel s (s.reg x) (s.reg y) n r c = true))

/-- Only CLS and DRW write the framebuffer (rule R15). -/
def Obligations.OnlyClsAndDrwWriteFramebuffer : Prop :=
  ∀ (i : Instr) (s t : State), exec i s = .next t → t.fb ≠ s.fb → i = .cls ∨ ∃ x y n, i = .drw x y n

/-! ### Recognised without effect -/

/-- The keypad, timer, font and BCD encodings (rules R130, R131, R133 to R138): PC + 2, no diagnostic, nothing else; in
particular VX, I and memory are not written and no address is checked. -/
def Obligations.UnimplementedOnlyAdvance : Prop :=
  ∀ (x : Reg) (s : State),
    (decodeWord (wordXNN 0xE x 0x9E) = .skp x ∧ AdvancesOnly (.skp x) .none s) ∧
    (decodeWord (wordXNN 0xE x 0xA1) = .sknp x ∧ AdvancesOnly (.sknp x) .none s) ∧
    (decodeWord (wordXNN 0xF x 0x07) = .ldVxDT x ∧ AdvancesOnly (.ldVxDT x) .none s) ∧
    (decodeWord (wordXNN 0xF x 0x0A) = .ldVxK x ∧ AdvancesOnly (.ldVxK x) .none s) ∧
    (decodeWord (wordXNN 0xF x 0x15) = .ldDTVx x ∧ AdvancesOnly (.ldDTVx x) .none s) ∧
    (decodeWord (wordXNN 0xF x 0x18) = .ldSTVx x ∧ AdvancesOnly (.ldSTVx x) .none s) ∧
    (decodeWord (wordXNN 0xF x 0x29) = .ldFVx x ∧ AdvancesOnly (.ldFVx x) .none s) ∧
    (decodeWord (wordXNN 0xF x 0x33) = .ldBVx x ∧ AdvancesOnly (.ldBVx x) .none s)

/-! ### Index arithmetic and block transfer -/

/-- `ADD I, Vx` (rule R150; the wrap at 65536 is decision D16): I := (I + VX) mod 65536, VF is not written, PC + 2, and
nothing else changes. -/
def Obligations.AddIndexWraps : Prop :=
  ∀ (x : Reg) (s : State), decodeWord (wordXNN 0xF x 0x1E) = .addI x ∧
    ∃ t, exec (.addI x) s = .next t ∧ t.i.toNat = (s.i.toNat + (s.reg x).toNat) % 65536 ∧
      EndsAt (s.pc + 2) .none s t ∧ OnlyChanges [.index, .pc, .outputs] s t

/-- Only LD I and ADD I write the index register (rule R12). -/
def Obligations.OnlyTwoWriteIndex : Prop :=
  ∀ (i : Instr) (s t : State), exec i s = .next t → t.i ≠ s.i → (∃ nnn, i = .ldI nnn) ∨ ∃ x, i = .addI x

/-- `LD [I], Vx` (rule R151; the bound X - 1 is decision D7): where all X addresses are in the legal window, V0 to
V(X - 1) go to I upward, every other byte and everything else stays; X = 0 stores nothing and checks nothing. -/
def Obligations.BlockStoreWritesBelowX : Prop :=
  ∀ (x : Reg) (s : State), decodeWord (wordXNN 0xF x 0x55) = .storeRegs x ∧
    (x.val = 0 ∨ s.i.toNat + x.val ≤ 0xEA0 →
      ∃ t, exec (.storeRegs x) s = .next t ∧
        (∀ k : Reg, k.val < x.val → t.mem.read (s.dataAddr k.val) = s.reg k) ∧
        (∀ a : Nat, (∀ k : Reg, k.val < x.val → a ≠ s.dataAddr k.val) → t.mem.read a = s.mem.read a) ∧
        EndsAt (s.pc + 2) .none s t ∧ OnlyChanges [.memory, .pc, .outputs] s t)

/-- `LD Vx, [I]` (rule R152; the bound X - 1 is decision D7): where all X addresses are in the legal window, V0 to
V(X - 1) are loaded from I upward, the other registers, memory and everything else stay; X = 0 loads nothing and checks
nothing. -/
def Obligations.BlockLoadReadsBelowX : Prop :=
  ∀ (x : Reg) (s : State), decodeWord (wordXNN 0xF x 0x65) = .loadRegs x ∧
    (x.val = 0 ∨ s.i.toNat + x.val ≤ 0xEA0 →
      ∃ t, exec (.loadRegs x) s = .next t ∧
        (∀ r : Reg, t.reg r = if r.val < x.val then s.mem.read (s.dataAddr r.val) else s.reg r) ∧
        EndsAt (s.pc + 2) .none s t ∧ OnlyChanges [.regs, .pc, .outputs] s t)

/-- The data faults of DRW, LD [I] and LD Vx, [I] (rules R32, R39, R166; decisions D3, D4, D5, D16, D24), where at least
one byte is accessed and the highest lies at or above 0xEA0: the fault names the lowest offending address, I itself or
0xEA0, RESERVED up to 0xFFF and RANGE above, and nothing else changes. -/
def Obligations.DataOutsideWindowFaults : Prop :=
  ∀ (i : Instr) (cnt : Nat) (s : State),
    ((∃ x, i = .storeRegs x ∧ cnt = x.val) ∨ (∃ x, i = .loadRegs x ∧ cnt = x.val) ∨
      ∃ x y n, i = .drw x y n ∧ cnt = (if (s.reg y).toNat > 31 then 0 else min n.toNat (32 - (s.reg y).toNat))) →
    0 < cnt → 0xEA0 < s.i.toNat + cnt →
    ∃ t, exec i s = .next t ∧
      Faulted (if s.i.toNat ≤ 0xFFF then .dataReserved else .dataRange) (max s.i.toNat 0xEA0) s t

/-- A block stored and loaded again (rule R152): with the same X and I and memory as stored, whatever the registers hold
meanwhile, V0 to V(X - 1) come back. -/
def Obligations.StoreThenLoadRestores : Prop :=
  ∀ (x : Reg) (s t u w : State), s.status = .run → exec (.storeRegs x) s = .next t → t.status = .run →
    u.mem = t.mem → u.i = s.i → exec (.loadRegs x) u = .next w →
    ∀ r : Reg, r.val < x.val → w.reg r = s.reg r

/-- A store into code is seen by the next fetch (rule R42, decision D21): where FX55 stores V(k) and V(k + 1) at the two
bytes after its own word, the next step runs the word they make. -/
def Obligations.StoreIntoCodeIsFetched : Prop :=
  ∀ (x k k' : Reg) (s t : State), k'.val = k.val + 1 → k'.val < x.val → s.dataAddr k.val = s.pc.toNat + 2 →
    s.status = .run → exec (.storeRegs x) s = .next t → t.status = .run →
    step t = exec (decodeWord (wordOfBytes (s.reg k) (s.reg k'))) t

/-! ### Step outputs -/

/-- `no_progress` (rule R165): on every completed instruction it is exactly PC after = PC before, and only JP, JP V0,
CALL and RET can set it. -/
def Obligations.NoProgressIsPcUnchanged : Prop :=
  ∀ (i : Instr) (s t : State) (o : StepOutputs), exec i s = .next t → t.outputs = some o →
    (o.noProgress = true ↔ t.pc = s.pc) ∧
      (o.noProgress = true → (∃ nnn, i = .jp nnn) ∨ (∃ nnn, i = .jpV0 nnn) ∨ (∃ nnn, i = .call nnn) ∨ i = .ret)

/-- `diag` (rules R161, R162, R164, R174; the codes are decision D17): UNDEFINED_INSTRUCTION exactly for the undefined
rows, STACK_UNDERFLOW exactly for RET on an empty stack. -/
def Obligations.DiagnosticsAreExact : Prop :=
  ∀ (i : Instr) (s t : State) (o : StepOutputs), exec i s = .next t → t.outputs = some o →
    (o.diag = .undefinedInstruction ↔
      (∃ x y n, i = .undef8 x y n) ∨ (∃ x nn, i = .undefE x nn) ∨ ∃ x nn, i = .undefF x nn) ∧
    (o.diag = .stackUnderflow ↔ i = .ret ∧ s.sp = 0)
end

