-- ==== Sys2Proof/Laws/Decode.lean ====
section
/-! SUPPORT. The fields of a word built from its fields (`30_encoding.md` rules R51, R52), the word of its own fields,
the bytes of a word, and the family decoders away from their listed values. -/

namespace Sys2Proof

/-! ### Fields of a built word -/

@[simp] theorem fieldOp_wordNNN (op : Nibble) (nnn : Addr12) : fieldOp (wordNNN op nnn) = op := by
  unfold fieldOp wordNNN
  rw [BitVec.extractLsb'_append_eq_of_le (by omega)]
  simp

@[simp] theorem fieldNNN_wordNNN (op : Nibble) (nnn : Addr12) : fieldNNN (wordNNN op nnn) = nnn := by
  unfold fieldNNN wordNNN
  rw [BitVec.extractLsb'_append_eq_of_add_le (by omega)]
  simp

@[simp] theorem fieldOp_wordXNN (op : Nibble) (x : Reg) (nn : Byte) : fieldOp (wordXNN op x nn) = op :=
  fieldOp_wordNNN op _

@[simp] theorem fieldX_wordXNN (op : Nibble) (x : Reg) (nn : Byte) : fieldX (wordXNN op x nn) = x := by
  unfold fieldX wordXNN wordNNN
  rw [BitVec.extractLsb'_append_eq_of_add_le (by omega), BitVec.extractLsb'_append_eq_of_le (by omega)]
  simp

@[simp] theorem fieldNN_wordXNN (op : Nibble) (x : Reg) (nn : Byte) : fieldNN (wordXNN op x nn) = nn := by
  unfold fieldNN wordXNN wordNNN
  rw [BitVec.extractLsb'_append_eq_of_add_le (by omega), BitVec.extractLsb'_append_eq_of_add_le (by omega)]
  simp

@[simp] theorem fieldOp_wordXYN (op : Nibble) (x y : Reg) (n : Nibble) : fieldOp (wordXYN op x y n) = op :=
  fieldOp_wordNNN op _

@[simp] theorem fieldX_wordXYN (op : Nibble) (x y : Reg) (n : Nibble) : fieldX (wordXYN op x y n) = x :=
  fieldX_wordXNN op x _

@[simp] theorem fieldY_wordXYN (op : Nibble) (x y : Reg) (n : Nibble) : fieldY (wordXYN op x y n) = y := by
  unfold fieldY wordXYN wordXNN wordNNN
  rw [BitVec.extractLsb'_append_eq_of_add_le (by omega), BitVec.extractLsb'_append_eq_of_add_le (by omega),
    BitVec.extractLsb'_append_eq_of_le (by omega)]
  simp

@[simp] theorem fieldN_wordXYN (op : Nibble) (x y : Reg) (n : Nibble) : fieldN (wordXYN op x y n) = n := by
  unfold fieldN wordXYN wordXNN wordNNN
  rw [BitVec.extractLsb'_append_eq_of_add_le (by omega), BitVec.extractLsb'_append_eq_of_add_le (by omega),
    BitVec.extractLsb'_append_eq_of_add_le (by omega)]
  simp

/-! ### A word is the word of its fields -/

theorem wordNNN_fields (w : Word) : wordNNN (fieldOp w) (fieldNNN w) = w :=
  BitVec.extractLsb'_append_extractLsb'_eq_extractLsb' (x := w) (by omega) |>.trans (by simp)

theorem fieldX_append_fieldNN (w : Word) : BitVec.ofFin (fieldX w) ++ fieldNN w = fieldNNN w :=
  BitVec.extractLsb'_append_extractLsb'_eq_extractLsb' (x := w) (by omega)

theorem fieldY_append_fieldN (w : Word) : BitVec.ofFin (fieldY w) ++ fieldN w = fieldNN w :=
  BitVec.extractLsb'_append_extractLsb'_eq_extractLsb' (x := w) (by omega)

theorem wordXNN_fields (w : Word) : wordXNN (fieldOp w) (fieldX w) (fieldNN w) = w := by
  rw [wordXNN, fieldX_append_fieldNN, wordNNN_fields]

theorem wordXYN_fields (w : Word) : wordXYN (fieldOp w) (fieldX w) (fieldY w) (fieldN w) = w := by
  rw [wordXYN, fieldY_append_fieldN, wordXNN_fields]

/-! ### A built word under the masks of the opcode map -/

@[simp] theorem nibble_and_ones (n : Nibble) : n &&& 15#4 = n := BitVec.and_allOnes (x := n)

@[simp] theorem byte_and_ones (b : Byte) : b &&& 255#8 = b := BitVec.and_allOnes (x := b)

theorem wordNNN_and (op : Nibble) (nnn : Addr12) : wordNNN op nnn &&& 0xF000 = wordNNN op 0 := by
  rw [show (0xF000 : Word) = 0xF#4 ++ 0x000#12 from rfl, wordNNN, wordNNN, BitVec.and_append]
  simp

theorem wordXNN_and_op (op : Nibble) (x : Reg) (nn : Byte) : wordXNN op x nn &&& 0xF000 = wordXNN op 0 0 :=
  wordNNN_and op _

theorem wordXYN_and_op (op : Nibble) (x y : Reg) (n : Nibble) : wordXYN op x y n &&& 0xF000 = wordXYN op 0 0 0 :=
  wordNNN_and op _

theorem wordXNN_and_code (op : Nibble) (x : Reg) (nn : Byte) : wordXNN op x nn &&& 0xF0FF = wordXNN op 0 nn := by
  rw [show (0xF0FF : Word) = 0xF#4 ++ (0x0#4 ++ 0xFF#8) from rfl, wordXNN, wordXNN, wordNNN, wordNNN,
    BitVec.and_append, BitVec.and_append]
  simp

theorem wordXYN_and_code (op : Nibble) (x y : Reg) (n : Nibble) :
    wordXYN op x y n &&& 0xF00F = wordXYN op 0 0 n := by
  rw [show (0xF00F : Word) = 0xF#4 ++ (0x0#4 ++ (0x0#4 ++ 0xF#4)) from rfl, wordXYN, wordXYN, wordXNN, wordXNN,
    wordNNN, wordNNN, BitVec.and_append, BitVec.and_append, BitVec.and_append]
  simp

/-! ### Bytes of a word -/

@[simp] theorem wordOfBytes_high_low (w : Word) : wordOfBytes (highByte w) (lowByte w) = w :=
  BitVec.extractLsb'_append_extractLsb'_eq_extractLsb' (x := w) (by omega) |>.trans (by simp)

@[simp] theorem highByte_wordOfBytes (hi lo : Byte) : highByte (wordOfBytes hi lo) = hi := by
  unfold highByte wordOfBytes
  rw [BitVec.extractLsb'_append_eq_of_le (by omega)]
  simp

@[simp] theorem lowByte_wordOfBytes (hi lo : Byte) : lowByte (wordOfBytes hi lo) = lo := by
  unfold lowByte wordOfBytes
  rw [BitVec.extractLsb'_append_eq_of_add_le (by omega)]
  simp

@[simp] theorem decode_two (hi lo : Byte) (rest : List Byte) :
    decode (hi :: lo :: rest) = .ok (decodeWord (wordOfBytes hi lo), rest) := rfl

end Sys2Proof
end

