-- ==== Sys2Proof/Laws/Memory.lean ====
section
/-! SUPPORT. The laws of memory (`20_memory.md` rule R33): a read after a write, and the canonical form. They need no
hypothesis on the list: only the canonical form itself is an invariant. -/

namespace Sys2Proof.Machine

@[simp] theorem Memory.read_nil (a : Nat) : Memory.read [] a = 0 := rfl

theorem Memory.read_cons (c : Host.Cell) (m : Memory) (a : Nat) :
    Memory.read (c :: m) a = if c.1 = a then c.2 else Memory.read m a := rfl

theorem Memory.read_without (m : Memory) (a k : Nat) :
    (m.without a).read k = if k = a then Memory.unlisted else m.read k := by
  induction m with
  | nil => simp [Memory.without, Memory.unlisted]
  | cons c m ih =>
    simp only [Memory.without] at ih
    by_cases hc : c.1 = a
    · simp only [Memory.without, List.filter_cons, hc, bne_self_eq_false, Bool.false_eq_true, if_false, ih,
        Memory.read_cons]
      by_cases hk : k = a
      · simp [hk]
      · simp [hk, Ne.symm hk]
    · simp only [Memory.without, List.filter_cons, bne_iff_ne, ne_eq, hc, not_false_eq_true, if_true,
        Memory.read_cons, ih]
      by_cases hk : c.1 = k
      · simp [hk, hk ▸ hc]
      · simp [hk]

theorem Memory.read_place (m : Memory) (a : Nat) (b : Byte) (k : Nat) (h : m.read a = Memory.unlisted)
    (hm : ∀ c ∈ m, c.1 ≠ a) : (m.place a b).read k = if k = a then b else m.read k := by
  induction m with
  | nil => simp [Memory.place, Memory.read_cons, eq_comm]
  | cons c m ih =>
    have hc : c.1 ≠ a := hm c (by simp)
    have ih := ih (by simpa [Memory.read_cons, hc] using h) (fun d hd => hm d (by simp [hd]))
    simp only [Memory.place]
    split
    · simp [Memory.read_cons, eq_comm]
    · simp only [Memory.read_cons, ih]
      by_cases hk : c.1 = k
      · simp [hk, hk ▸ hc]
      · simp [hk]

theorem Memory.without_ne (m : Memory) (a : Nat) : ∀ c ∈ m.without a, c.1 ≠ a := by
  simp [Memory.without]

/-- The read-after-write law: the written byte at its address, every other byte as before. -/
theorem Memory.read_write (m : Memory) (a : Nat) (b : Byte) (k : Nat) :
    (m.write a b).read k = if k = a then b else m.read k := by
  unfold Memory.write
  split
  · next h => rw [Memory.read_without, h]
  · rw [Memory.read_place _ _ _ _ (by simp [Memory.read_without]) (m.without_ne a), Memory.read_without]
    split <;> rfl

@[simp] theorem Memory.read_write_self (m : Memory) (a : Nat) (b : Byte) : (m.write a b).read a = b := by
  simp [Memory.read_write]

theorem Memory.read_write_of_ne (m : Memory) (b : Byte) {a k : Nat} (h : k ≠ a) :
    (m.write a b).read k = m.read k := by
  simp [Memory.read_write, h]

theorem Memory.mem_place {m : Memory} {a : Nat} {b : Byte} {c : Host.Cell} (h : c ∈ m.place a b) :
    c = (a, b) ∨ c ∈ m := by
  induction m with
  | nil => simpa [Memory.place] using h
  | cons d m ih =>
    simp only [Memory.place] at h
    split at h
    · simpa using h
    · rcases List.mem_cons.mp h with rfl | h
      · simp
      · rcases ih h with h | h <;> simp [h]

theorem Memory.place_rising {m : Memory} {a : Nat} {b : Byte} (hm : m.Pairwise (fun c d => c.1 < d.1))
    (ha : ∀ c ∈ m, c.1 ≠ a) : (m.place a b).Pairwise (fun c d => c.1 < d.1) := by
  induction m with
  | nil => simp [Memory.place]
  | cons c m ih =>
    obtain ⟨hcm, hm⟩ := List.pairwise_cons.mp hm
    simp only [Memory.place]
    split
    · next h =>
      refine List.pairwise_cons.mpr ⟨fun d hd => ?_, List.pairwise_cons.mpr ⟨hcm, hm⟩⟩
      rcases List.mem_cons.mp hd with rfl | hd
      · exact h
      · exact lt_trans h (hcm d hd)
    · next h =>
      refine List.pairwise_cons.mpr ⟨fun d hd => ?_, ih hm (fun d hd => ha d (by simp [hd]))⟩
      rcases Memory.mem_place hd with rfl | hd
      · exact lt_of_le_of_ne (not_lt.mp h) (ha c (by simp))
      · exact hcm d hd

/-- Every write inside the address space keeps the canonical form. -/
theorem Memory.wf_write {m : Memory} (h : m.wf) {a : Nat} (ha : a < Config.memSize) (b : Byte) :
    (m.write a b).wf := by
  have hw : (m.without a).wf :=
    ⟨h.1.filter _, fun c hc => h.2 c (List.mem_filter.mp hc).1⟩
  unfold Memory.write
  split
  · exact hw
  · next hb =>
    refine ⟨Memory.place_rising hw.1 (m.without_ne a), fun c hc => ?_⟩
    rcases Memory.mem_place hc with rfl | hc
    · exact ⟨ha, hb⟩
    · exact hw.2 c hc

theorem Memory.wf_nil : Memory.wf [] := by simp [Memory.wf]

/-- What a run of bytes from an address upward leaves to read (rule R181). -/
theorem read_writeImage (bs : List Byte) (a : Nat) (m : Memory) (k : Nat) :
    (writeImage bs a m).read k = if h : a ≤ k ∧ k - a < bs.length then bs[k - a]'h.2 else m.read k := by
  induction bs generalizing a m with
  | nil => simp [writeImage]
  | cons b bs ih =>
    simp only [writeImage, ih, Memory.read_write, List.length_cons]
    by_cases h1 : k = a
    · subst h1; simp
    · by_cases h2 : a ≤ k
      · obtain ⟨j, rfl⟩ : ∃ j, k = a + 1 + j := ⟨k - a - 1, by omega⟩
        have e1 : a + 1 + j - (a + 1) = j := by omega
        have e2 : a + 1 + j - a = j + 1 := by omega
        simp [e1, e2, h1]
        split <;> split <;> first | rfl | omega
      · simp [h1, h2, show ¬ a + 1 ≤ k by omega]

theorem wf_writeImage (bs : List Byte) {a : Nat} {m : Memory} (h : m.wf) (ha : a + bs.length ≤ Config.memSize) :
    (writeImage bs a m).wf := by
  induction bs generalizing a m with
  | nil => exact h
  | cons b bs ih =>
    simp only [List.length_cons] at ha
    exact ih (Memory.wf_write h (by omega) b) (by omega)

end Sys2Proof.Machine
end

