-- ==== Sys2Proof/Laws/State.lean ====
section
/-! SUPPORT. One lemma per field for each update of the state, so that no proof unfolds a record update. -/

namespace Sys2Proof.Machine

/-! ### Register write -/

@[simp] theorem setReg_v (s : State) (r : Reg) (b : Byte) : (s.setReg r b).v = s.v.set r b := rfl
@[simp] theorem setReg_i (s : State) (r : Reg) (b : Byte) : (s.setReg r b).i = s.i := rfl
@[simp] theorem setReg_pc (s : State) (r : Reg) (b : Byte) : (s.setReg r b).pc = s.pc := rfl
@[simp] theorem setReg_sp (s : State) (r : Reg) (b : Byte) : (s.setReg r b).sp = s.sp := rfl
@[simp] theorem setReg_stack (s : State) (r : Reg) (b : Byte) : (s.setReg r b).stack = s.stack := rfl
@[simp] theorem setReg_fb (s : State) (r : Reg) (b : Byte) : (s.setReg r b).fb = s.fb := rfl
@[simp] theorem setReg_mem (s : State) (r : Reg) (b : Byte) : (s.setReg r b).mem = s.mem := rfl
@[simp] theorem setReg_status (s : State) (r : Reg) (b : Byte) : (s.setReg r b).status = s.status := rfl
@[simp] theorem setReg_fcause (s : State) (r : Reg) (b : Byte) : (s.setReg r b).fcause = s.fcause := rfl
@[simp] theorem setReg_faddr (s : State) (r : Reg) (b : Byte) : (s.setReg r b).faddr = s.faddr := rfl
@[simp] theorem setReg_outputs (s : State) (r : Reg) (b : Byte) : (s.setReg r b).outputs = s.outputs := rfl
@[simp] theorem setReg_draws (s : State) (r : Reg) (b : Byte) : (s.setReg r b).draws = s.draws := rfl

theorem reg_setReg (s : State) (r q : Reg) (b : Byte) : (s.setReg r b).reg q = if q = r then b else s.reg q := by
  simp only [State.reg, State.setReg, Vector.get_eq_getElem, Vector.getElem_set, Fin.ext_iff, eq_comm]

@[simp] theorem reg_setReg_self (s : State) (r : Reg) (b : Byte) : (s.setReg r b).reg r = b := by
  simp [reg_setReg]

theorem reg_setReg_of_ne (s : State) (b : Byte) {r q : Reg} (h : q ≠ r) : (s.setReg r b).reg q = s.reg q := by
  simp [reg_setReg, h]

/-! ### The end of a completed step -/

@[simp] theorem complete_v (s : State) (target : Word) (d : Diag) : (complete target d s).v = s.v := rfl
@[simp] theorem complete_i (s : State) (target : Word) (d : Diag) : (complete target d s).i = s.i := rfl
@[simp] theorem complete_pc (s : State) (target : Word) (d : Diag) : (complete target d s).pc = target := rfl
@[simp] theorem complete_sp (s : State) (target : Word) (d : Diag) : (complete target d s).sp = s.sp := rfl
@[simp] theorem complete_stack (s : State) (target : Word) (d : Diag) : (complete target d s).stack = s.stack := rfl
@[simp] theorem complete_fb (s : State) (target : Word) (d : Diag) : (complete target d s).fb = s.fb := rfl
@[simp] theorem complete_mem (s : State) (target : Word) (d : Diag) : (complete target d s).mem = s.mem := rfl
@[simp] theorem complete_status (s : State) (target : Word) (d : Diag) : (complete target d s).status = s.status := rfl
@[simp] theorem complete_fcause (s : State) (target : Word) (d : Diag) : (complete target d s).fcause = s.fcause := rfl
@[simp] theorem complete_faddr (s : State) (target : Word) (d : Diag) : (complete target d s).faddr = s.faddr := rfl
@[simp] theorem complete_outputs (s : State) (target : Word) (d : Diag) : (complete target d s).outputs = some ⟨d, target == s.pc⟩ := rfl
@[simp] theorem complete_draws (s : State) (target : Word) (d : Diag) : (complete target d s).draws = s.draws := rfl

@[simp] theorem complete_reg (s : State) (target : Word) (d : Diag) (r : Reg) :
    (complete target d s).reg r = s.reg r := rfl

@[simp] theorem advance_eq (s : State) : advance s = complete (s.pc + 2) .none s := rfl

@[simp] theorem skipIf_eq (c : Bool) (s : State) :
    skipIf c s = complete (if c then s.pc + 4 else s.pc + 2) .none s := rfl

@[simp] theorem undefinedInstruction_eq (s : State) :
    undefinedInstruction s = complete (s.pc + 2) .undefinedInstruction s := rfl

@[simp] theorem aluPlain_eq (f : Byte → Byte → Byte) (x y : Reg) (s : State) :
    aluPlain f x y s = complete (s.pc + 2) .none (s.setReg x (f (s.reg x) (s.reg y))) := rfl

@[simp] theorem aluFlag_eq (flag f : Byte → Byte → Byte) (x y : Reg) (s : State) :
    aluFlag flag f x y s =
      complete (s.pc + 2) .none ((s.setReg VF (flag (s.reg x) (s.reg y))).setReg x (f (s.reg x) (s.reg y))) := rfl

/-! ### Immediates -/

@[simp] theorem zextAddr_toNat (nnn : Addr12) : (zextAddr nnn).toNat = nnn.toNat := by
  have := nnn.isLt
  simp only [zextAddr, BitVec.toNat_setWidth]
  omega

@[simp] theorem zextByte_toNat (b : Byte) : (zextByte b).toNat = b.toNat := by
  have := b.isLt
  simp only [zextByte, BitVec.toNat_setWidth]
  omega

/-! ### Fault entry -/

@[simp] theorem takeFault_v (s : State) (c : FaultCause) (a : Nat) : (takeFault c a s).v = s.v := rfl
@[simp] theorem takeFault_i (s : State) (c : FaultCause) (a : Nat) : (takeFault c a s).i = s.i := rfl
@[simp] theorem takeFault_pc (s : State) (c : FaultCause) (a : Nat) : (takeFault c a s).pc = s.pc := rfl
@[simp] theorem takeFault_sp (s : State) (c : FaultCause) (a : Nat) : (takeFault c a s).sp = s.sp := rfl
@[simp] theorem takeFault_stack (s : State) (c : FaultCause) (a : Nat) : (takeFault c a s).stack = s.stack := rfl
@[simp] theorem takeFault_fb (s : State) (c : FaultCause) (a : Nat) : (takeFault c a s).fb = s.fb := rfl
@[simp] theorem takeFault_mem (s : State) (c : FaultCause) (a : Nat) : (takeFault c a s).mem = s.mem := rfl
@[simp] theorem takeFault_status (s : State) (c : FaultCause) (a : Nat) : (takeFault c a s).status = .fault := rfl
@[simp] theorem takeFault_fcause (s : State) (c : FaultCause) (a : Nat) : (takeFault c a s).fcause = c := rfl
@[simp] theorem takeFault_faddr (s : State) (c : FaultCause) (a : Nat) : (takeFault c a s).faddr = BitVec.ofNat 17 a := rfl
@[simp] theorem takeFault_outputs (s : State) (c : FaultCause) (a : Nat) : (takeFault c a s).outputs = none := rfl
@[simp] theorem takeFault_draws (s : State) (c : FaultCause) (a : Nat) : (takeFault c a s).draws = s.draws := rfl

@[simp] theorem takeFault_reg (s : State) (c : FaultCause) (a : Nat) (r : Reg) :
    (takeFault c a s).reg r = s.reg r := rfl

/-! ### Call stack -/

@[simp] theorem push_v (s : State) (a : Word) : (s.push a).v = s.v := rfl
@[simp] theorem push_i (s : State) (a : Word) : (s.push a).i = s.i := rfl
@[simp] theorem push_pc (s : State) (a : Word) : (s.push a).pc = s.pc := rfl
@[simp] theorem push_sp (s : State) (a : Word) : (s.push a).sp = s.sp + 1 := rfl
@[simp] theorem push_stack (s : State) (a : Word) : (s.push a).stack = s.stack.setIfInBounds s.sp.toNat a := rfl
@[simp] theorem push_fb (s : State) (a : Word) : (s.push a).fb = s.fb := rfl
@[simp] theorem push_mem (s : State) (a : Word) : (s.push a).mem = s.mem := rfl
@[simp] theorem push_status (s : State) (a : Word) : (s.push a).status = s.status := rfl
@[simp] theorem push_fcause (s : State) (a : Word) : (s.push a).fcause = s.fcause := rfl
@[simp] theorem push_faddr (s : State) (a : Word) : (s.push a).faddr = s.faddr := rfl
@[simp] theorem push_outputs (s : State) (a : Word) : (s.push a).outputs = s.outputs := rfl
@[simp] theorem push_draws (s : State) (a : Word) : (s.push a).draws = s.draws := rfl

@[simp] theorem push_reg (s : State) (a : Word) (r : Reg) : (s.push a).reg r = s.reg r := rfl

@[simp] theorem pop_v (s : State) : (s.pop).v = s.v := rfl
@[simp] theorem pop_i (s : State) : (s.pop).i = s.i := rfl
@[simp] theorem pop_pc (s : State) : (s.pop).pc = s.pc := rfl
@[simp] theorem pop_sp (s : State) : (s.pop).sp = s.sp - 1 := rfl
@[simp] theorem pop_stack (s : State) : (s.pop).stack = s.stack := rfl
@[simp] theorem pop_fb (s : State) : (s.pop).fb = s.fb := rfl
@[simp] theorem pop_mem (s : State) : (s.pop).mem = s.mem := rfl
@[simp] theorem pop_status (s : State) : (s.pop).status = s.status := rfl
@[simp] theorem pop_fcause (s : State) : (s.pop).fcause = s.fcause := rfl
@[simp] theorem pop_faddr (s : State) : (s.pop).faddr = s.faddr := rfl
@[simp] theorem pop_outputs (s : State) : (s.pop).outputs = s.outputs := rfl
@[simp] theorem pop_draws (s : State) : (s.pop).draws = s.draws := rfl

@[simp] theorem pop_reg (s : State) (r : Reg) : s.pop.reg r = s.reg r := rfl

/-! ### Random draw -/

@[simp] theorem countDraw_reg (s : State) (r : Reg) : s.countDraw.reg r = s.reg r := rfl

@[simp] theorem countDraw_v (s : State) : (s.countDraw).v = s.v := rfl
@[simp] theorem countDraw_i (s : State) : (s.countDraw).i = s.i := rfl
@[simp] theorem countDraw_pc (s : State) : (s.countDraw).pc = s.pc := rfl
@[simp] theorem countDraw_sp (s : State) : (s.countDraw).sp = s.sp := rfl
@[simp] theorem countDraw_stack (s : State) : (s.countDraw).stack = s.stack := rfl
@[simp] theorem countDraw_fb (s : State) : (s.countDraw).fb = s.fb := rfl
@[simp] theorem countDraw_mem (s : State) : (s.countDraw).mem = s.mem := rfl
@[simp] theorem countDraw_status (s : State) : (s.countDraw).status = s.status := rfl
@[simp] theorem countDraw_fcause (s : State) : (s.countDraw).fcause = s.fcause := rfl
@[simp] theorem countDraw_faddr (s : State) : (s.countDraw).faddr = s.faddr := rfl
@[simp] theorem countDraw_outputs (s : State) : (s.countDraw).outputs = s.outputs := rfl
@[simp] theorem countDraw_draws (s : State) : (s.countDraw).draws = s.draws + 1 := rfl

/-! ### Image load -/

@[simp] theorem loadImage_v (s : State) (img : List Byte) : (s.loadImage img).v = s.v := rfl
@[simp] theorem loadImage_i (s : State) (img : List Byte) : (s.loadImage img).i = s.i := rfl
@[simp] theorem loadImage_pc (s : State) (img : List Byte) : (s.loadImage img).pc = s.pc := rfl
@[simp] theorem loadImage_sp (s : State) (img : List Byte) : (s.loadImage img).sp = s.sp := rfl
@[simp] theorem loadImage_stack (s : State) (img : List Byte) : (s.loadImage img).stack = s.stack := rfl
@[simp] theorem loadImage_fb (s : State) (img : List Byte) : (s.loadImage img).fb = s.fb := rfl
@[simp] theorem loadImage_mem (s : State) (img : List Byte) : (s.loadImage img).mem = writeImage (img.take Config.maxImage) Config.progBase s.mem := rfl
@[simp] theorem loadImage_status (s : State) (img : List Byte) : (s.loadImage img).status = s.status := rfl
@[simp] theorem loadImage_fcause (s : State) (img : List Byte) : (s.loadImage img).fcause = s.fcause := rfl
@[simp] theorem loadImage_faddr (s : State) (img : List Byte) : (s.loadImage img).faddr = s.faddr := rfl
@[simp] theorem loadImage_outputs (s : State) (img : List Byte) : (s.loadImage img).outputs = s.outputs := rfl
@[simp] theorem loadImage_draws (s : State) (img : List Byte) : (s.loadImage img).draws = s.draws := rfl

/-! ### Registers under the updates of one field -/

@[simp] theorem reg_with_i (s : State) (w : Word) (r : Reg) : ({ s with i := w } : State).reg r = s.reg r := rfl
@[simp] theorem reg_with_fb (s : State) (fb : Vector PixelRow 32) (r : Reg) :
    ({ s with fb := fb } : State).reg r = s.reg r := rfl
@[simp] theorem reg_with_mem (s : State) (m : Memory) (r : Reg) : ({ s with mem := m } : State).reg r = s.reg r := rfl
@[simp] theorem reg_with_v (s : State) (v : Vector Byte 16) (r : Reg) : ({ s with v := v } : State).reg r = v.get r := rfl

/-! ### Reset -/

@[simp] theorem resetAt_reg (e : Word) (r : Reg) : (State.resetAt e).reg r = 0 := by
  simp [State.resetAt, State.reg, Vector.get_eq_getElem]

end Sys2Proof.Machine
end

