-- ==== Sys2Proof/Laws/Ops.lean ====
section
/-! SUPPORT. One lemma for each shared operation, saying everything it can do: the address check, an access, the block
transfers, the draw, the call stack. -/

namespace Sys2Proof.Machine

/-! ### The address check (`20_memory.md` rule R32) -/

theorem checkAddr_eq_none {k : Access} {a : Nat} : checkAddr k a = none ↔ a < Config.reservedBase := by
  unfold checkAddr
  split
  · simp [*]
  · split <;> simp [*]

theorem checkAddrs_eq_none {k : Access} {l : List Nat} :
    checkAddrs k l = none ↔ ∀ a ∈ l, a < Config.reservedBase := by
  induction l with
  | nil => simp [checkAddrs]
  | cons a l ih =>
    simp only [checkAddrs, List.forall_mem_cons, ← ih, ← checkAddr_eq_none (k := k) (a := a)]
    cases checkAddr k a <;> simp

/-- A failing check: the first failing address, everything before it legal. -/
theorem checkAddrs_eq_some {k : Access} {l : List Nat} {c : FaultCause} {a : Nat} :
    checkAddrs k l = some (c, a) ↔
      ∃ pre post, l = pre ++ a :: post ∧ (∀ b ∈ pre, b < Config.reservedBase) ∧ checkAddr k a = some c := by
  induction l with
  | nil => simp [checkAddrs]
  | cons b l ih =>
    simp only [checkAddrs]
    cases hb : checkAddr k b with
    | some d =>
      have hb' : ¬ b < Config.reservedBase := fun h => by simp [checkAddr_eq_none.mpr h] at hb
      constructor
      · intro h
        obtain ⟨rfl, rfl⟩ : d = c ∧ b = a := by simpa using h
        exact ⟨[], l, rfl, by simp, hb⟩
      · rintro ⟨pre, post, h, hpre, hc⟩
        cases pre with
        | nil => obtain ⟨rfl, rfl⟩ := List.cons.inj h; simp_all
        | cons p pre => obtain ⟨rfl, rfl⟩ := List.cons.inj h; exact absurd (hpre _ (by simp)) hb'
    | none =>
      have hb' : b < Config.reservedBase := checkAddr_eq_none.mp hb
      simp only [ih]
      constructor
      · rintro ⟨pre, post, rfl, hpre, hc⟩
        exact ⟨b :: pre, post, rfl, by simpa [hb'] using hpre, hc⟩
      · rintro ⟨pre, post, h, hpre, hc⟩
        cases pre with
        | nil => obtain ⟨rfl, rfl⟩ := List.cons.inj h; simp_all
        | cons p pre =>
          obtain ⟨rfl, rfl⟩ := List.cons.inj h
          exact ⟨pre, post, rfl, fun x hx => hpre x (by simp [hx]), hc⟩

/-- The cause tells the kind of the access and the region of the address (rule R166). -/
theorem checkAddr_eq_some {k : Access} {a : Nat} {c : FaultCause} (h : checkAddr k a = some c) :
    Config.reservedBase ≤ a ∧
      ((a < Config.memSize ∧ c = reservedCause k) ∨ (Config.memSize ≤ a ∧ c = rangeCause k)) := by
  unfold checkAddr at h
  split at h
  · simp at h
  · split at h
    · exact ⟨by omega, .inl ⟨by assumption, by simpa using h.symm⟩⟩
    · exact ⟨by omega, .inr ⟨by omega, by simpa using h.symm⟩⟩

theorem mem_dataAddrs {s : State} {n a : Nat} : a ∈ s.dataAddrs n ↔ ∃ k, k < n ∧ s.i.toNat + k = a := by
  simp [State.dataAddrs, State.dataAddr]

/-- The data check passes exactly when no address, or the highest, is in the legal window. -/
theorem checkAddrs_dataAddrs_eq_none {s : State} {k : Access} {n : Nat} :
    checkAddrs k (s.dataAddrs n) = none ↔ n = 0 ∨ s.i.toNat + n ≤ Config.reservedBase := by
  simp only [checkAddrs_eq_none, mem_dataAddrs]
  constructor
  · intro h
    rcases n with _ | n
    · simp
    · have := h _ ⟨n, by omega, rfl⟩
      exact .inr (by omega)
  · rintro (rfl | h) a ⟨k, hk, rfl⟩ <;> omega

/-- The first failing data address: I itself if it is not legal, else the first reserved address. -/
theorem checkAddrs_dataAddrs_eq_some {s : State} {k : Access} {n a : Nat} {c : FaultCause} :
    checkAddrs k (s.dataAddrs n) = some (c, a) ↔
      0 < n ∧ Config.reservedBase < s.i.toNat + n ∧ a = max s.i.toNat Config.reservedBase ∧ checkAddr k a = some c := by
  rw [checkAddrs_eq_some]
  constructor
  · rintro ⟨pre, post, h, hpre, hc⟩
    have ha : Config.reservedBase ≤ a := (checkAddr_eq_some hc).1
    have hlen : pre.length + (post.length + 1) = n := by
      have := congrArg List.length h
      simpa [State.dataAddrs] using this.symm
    have hget : a = s.i.toNat + pre.length := by
      have := congrArg (fun l => l[pre.length]?) h
      simp [State.dataAddrs, State.dataAddr, show pre.length < n by omega] at this
      exact this.symm
    have hbelow : pre.length ≠ 0 → s.i.toNat + (pre.length - 1) < Config.reservedBase := by
      intro h0
      refine hpre _ ?_
      have h1 := congrArg (fun l => l[pre.length - 1]?) h
      simp [State.dataAddrs, State.dataAddr, show pre.length - 1 < n by omega,
        List.getElem?_append_left (show pre.length - 1 < pre.length by omega)] at h1
      exact List.mem_of_getElem? h1.symm
    refine ⟨by omega, by omega, ?_, hc⟩
    by_cases h0 : pre.length = 0
    · rw [hget, h0]; omega
    · have := hbelow h0; omega
  · rintro ⟨hn, hlt, rfl, hc⟩
    obtain ⟨j, hj⟩ : ∃ j, s.i.toNat + j = max s.i.toNat Config.reservedBase := ⟨max s.i.toNat Config.reservedBase - s.i.toNat, by omega⟩
    have hjn : j < n := by omega
    refine ⟨s.dataAddrs j, (List.range (n - j - 1)).map (fun x => s.i.toNat + (j + 1 + x)), ?_, ?_, hc⟩
    · rw [← hj]
      apply List.ext_getElem
      · simp [State.dataAddrs]; omega
      · intro i h1 h2
        simp only [State.dataAddrs, List.length_map, List.length_range] at h1 ⊢
        rcases lt_trichotomy i j with hij | rfl | hij
        · simp [hij, State.dataAddr]
        · simp [State.dataAddr]
        · obtain ⟨d, rfl⟩ : ∃ d, i = j + 1 + d := ⟨i - j - 1, by omega⟩
          simp [List.getElem_append, State.dataAddr, show ¬ j + 1 + d < j by omega, show j + 1 + d - j = d + 1 by omega]
    · intro b hb
      obtain ⟨k, hk, rfl⟩ := mem_dataAddrs.mp hb
      omega

/-! ### An access -/

/-- An access either faults on its first failing address or completes. -/
theorem accessing_cases {k : Access} {l : List Nat} {s done t : State} (h : accessing k l s done = .next t) :
    (∃ c a, checkAddrs k l = some (c, a) ∧ t = takeFault c a s) ∨ (checkAddrs k l = none ∧ t = done) := by
  unfold accessing at h
  split at h
  · next c a hc => exact .inl ⟨c, a, hc, by simpa using h.symm⟩
  · next hc => exact .inr ⟨hc, by simpa using h.symm⟩

theorem accessing_of_none {k : Access} {l : List Nat} {s done : State} (h : checkAddrs k l = none) :
    accessing k l s done = .next done := by simp [accessing, h]

theorem accessing_of_some {k : Access} {l : List Nat} {s done : State} {c : FaultCause} {a : Nat}
    (h : checkAddrs k l = some (c, a)) : accessing k l s done = .next (takeFault c a s) := by simp [accessing, h]

/-! ### Block transfers (`46_index_block.md` rules R151, R152) -/

@[simp] theorem regNo_val {k : Nat} (h : k < 16) : (regNo k).val = k := by
  simp [regNo, Fin.ofNat, Nat.mod_eq_of_lt h]

theorem read_storeBlock (s : State) (n a : Nat) :
    (storeBlock s n).read a =
      if s.i.toNat ≤ a ∧ a < s.i.toNat + n then s.reg (regNo (a - s.i.toNat)) else s.mem.read a := by
  induction n with
  | zero => simp [storeBlock]
  | succ n ih =>
    simp only [storeBlock, Memory.read_write, ih, State.dataAddr]
    by_cases h : a = s.i.toNat + n
    · subst h; simp
    · simp only [h, if_false]
      congr 1
      simp only [eq_iff_iff]
      omega

theorem wf_storeBlock {s : State} (h : s.mem.wf) {n : Nat} (hn : n = 0 ∨ s.i.toNat + n ≤ Config.memSize) :
    (storeBlock s n).wf := by
  induction n with
  | zero => exact h
  | succ n ih => exact Memory.wf_write (ih (by omega)) (by simp only [State.dataAddr]; omega) _

theorem get_loadBlock (s : State) {n : Nat} (hn : n ≤ 16) (r : Reg) :
    (loadBlock s n).get r = if r.val < n then s.mem.read (s.i.toNat + r.val) else s.reg r := by
  induction n with
  | zero => rfl
  | succ n ih =>
    have hv : (regNo n).val = n := regNo_val (by omega)
    simp only [loadBlock, Vector.get_eq_getElem, Vector.getElem_set, hv, State.dataAddr] at ih ⊢
    rw [ih (by omega)]
    by_cases h : n = r.val
    · simp [h]
    · have : (r.val < n + 1) = (r.val < n) := by simp only [eq_iff_iff]; omega
      simp [h, this]

/-! ### The draw (`44_display.md` rules R121, R123, R124) -/

@[simp] theorem fbRow_get (fb : Vector PixelRow 32) (k : Fin 32) : fbRow fb k.val = fb.get k := by
  simp [fbRow, Vector.get_eq_getElem]

theorem drawnRows_le (y : Byte) (n : Nibble) : drawnRows y n ≤ n.toNat ∧ (drawnRows y n = 0 ∨ y.toNat + drawnRows y n ≤ 32) := by
  unfold drawnRows
  split <;> omega

/-- A row of the framebuffer after a draw: XORed once if it is one of the drawn rows, else as before. -/
theorem drawRows_fst (s : State) (x y : Byte) {cnt : Nat} (k : Fin 32) :
    (drawRows s x y cnt).1.get k =
      if y.toNat ≤ k.val ∧ k.val < y.toNat + cnt then s.fb.get k ^^^ spriteMask s x (k.val - y.toNat) else s.fb.get k := by
  induction cnt with
  | zero => simp [drawRows]
  | succ r ih =>
    simp only [drawRows, Vector.get_eq_getElem, Vector.getElem_setIfInBounds] at ih ⊢
    by_cases h : y.toNat + r = k.val
    · have h1 : fbRow (drawRows s x y r).1 k.val = (drawRows s x y r).1.get k := fbRow_get _ k
      rw [Vector.get_eq_getElem, ih] at h1
      have h2 : y.toNat ≤ k.val ∧ k.val < y.toNat + (r + 1) := by omega
      have h3 : k.val - y.toNat = r := by omega
      simp [h, h1, h2, h3]
    · simp only [h, if_false, ih]
      congr 1
      simp only [eq_iff_iff]
      omega

/-- The collision: some drawn row has a set bit under a sprite bit, in the framebuffer before the draw. -/
theorem drawRows_snd (s : State) (x y : Byte) {cnt : Nat} :
    (drawRows s x y cnt).2 = true ↔
      ∃ r, r < cnt ∧ fbRow s.fb (y.toNat + r) &&& spriteMask s x r ≠ 0 := by
  induction cnt with
  | zero => simp [drawRows]
  | succ r ih =>
    have hrow : fbRow (drawRows s x y r).1 (y.toNat + r) = fbRow s.fb (y.toNat + r) := by
      by_cases h : y.toNat + r < 32
      · have := drawRows_fst s x y (cnt := r) ⟨y.toNat + r, h⟩
        simpa [← fbRow_get] using this
      · simp [fbRow, h]
    simp only [drawRows, hrow, Bool.or_eq_true, ih, bne_iff_ne, ne_eq]
    constructor
    · rintro (⟨q, hq, h⟩ | h)
      · exact ⟨q, by omega, h⟩
      · exact ⟨r, by omega, h⟩
    · rintro ⟨q, hq, h⟩
      by_cases hqr : q = r
      · exact .inr (hqr ▸ h)
      · exact .inl ⟨q, by omega, h⟩

/-! ### The call stack (`10_state.md` rule R14) -/

theorem get_push {s : State} (a : Word) (k : Fin 12) :
    (s.push a).stack.get k = if k.val = s.sp.toNat then a else s.stack.get k := by
  simp only [push_stack, Vector.get_eq_getElem, Vector.getElem_setIfInBounds]
  by_cases h : s.sp.toNat = k.val
  · simp [h]
  · simp [h, Ne.symm h]

theorem push_sp_toNat {s : State} (a : Word) (h : s.sp.toNat < Config.stackDepth) :
    (s.push a).sp.toNat = s.sp.toNat + 1 := by
  simp only [push_sp, BitVec.toNat_add, Config.stackDepth] at *
  simp
  omega

theorem pop_sp_toNat {s : State} (h : s.sp ≠ 0) : s.pop.sp.toNat = s.sp.toNat - 1 := by
  have : s.sp.toNat ≠ 0 := fun h' => h (BitVec.eq_of_toNat_eq (by simpa using h'))
  simp only [pop_sp, BitVec.toNat_sub]
  have := s.sp.isLt
  simp
  omega

theorem top_eq {s : State} (h : s.sp.toNat - 1 < 12) : s.top = some (s.stack.get ⟨s.sp.toNat - 1, h⟩) := by
  simp [State.top, Vector.get_eq_getElem, h]

end Sys2Proof.Machine
end

