-- ==== Sys2Proof/Laws/PerInstr.lean ====
section
/-! SUPPORT. Statements made of every instruction as syntax, one lemma per constructor of Instr. -/

namespace Sys2Proof.Laws.WordShape

/-- The word of an instruction agrees with the pattern of its own row of the opcode map on that row's mask
(`30_encoding.md` rule R61), at every operand and for ill-formed terms too. -/
def Statement (i : Instr) : Prop :=
  ∃ row ∈ opcodeTable, row.priority = i.priority ∧ row.matches (encodeWord i) = true

theorem matches_of_and {p : Nat} {m : String} {w pattern mask : Word} (h : w &&& mask = pattern) :
    OpcodeRow.matches ⟨p, m, pattern, mask⟩ w = true := by
  simp [OpcodeRow.matches, h]

theorem cls : Statement .cls :=
  ⟨⟨1, "CLS", 0x00E0, 0xFFFF⟩, by simp [opcodeTable, opcodeRowsLow], rfl, rfl⟩

theorem ret : Statement .ret :=
  ⟨⟨2, "RET", 0x00EE, 0xFFFF⟩, by simp [opcodeTable, opcodeRowsLow], rfl, rfl⟩

theorem sys (nnn : Addr12) : Statement (.sys nnn) :=
  ⟨⟨3, "SYS_nnn", 0x0000, 0xF000⟩, by simp [opcodeTable, opcodeRowsLow], rfl, matches_of_and (wordNNN_and _ _)⟩

theorem jp (nnn : Addr12) : Statement (.jp nnn) :=
  ⟨⟨4, "JP_nnn", 0x1000, 0xF000⟩, by simp [opcodeTable, opcodeRowsLow], rfl, matches_of_and (wordNNN_and _ _)⟩

theorem call (nnn : Addr12) : Statement (.call nnn) :=
  ⟨⟨5, "CALL_nnn", 0x2000, 0xF000⟩, by simp [opcodeTable, opcodeRowsLow], rfl, matches_of_and (wordNNN_and _ _)⟩

theorem seImm (x : Reg) (nn : Byte) : Statement (.seImm x nn) :=
  ⟨⟨6, "SE_Vx__nn", 0x3000, 0xF000⟩, by simp [opcodeTable, opcodeRowsLow], rfl, matches_of_and (wordXNN_and_op _ _ _)⟩

theorem sneImm (x : Reg) (nn : Byte) : Statement (.sneImm x nn) :=
  ⟨⟨7, "SNE_Vx__nn", 0x4000, 0xF000⟩, by simp [opcodeTable, opcodeRowsLow], rfl, matches_of_and (wordXNN_and_op _ _ _)⟩

theorem seReg (x : Reg) (y : Reg) (n : Nibble) : Statement (.seReg x y n) :=
  ⟨⟨8, "SE_Vx__Vy", 0x5000, 0xF000⟩, by simp [opcodeTable, opcodeRowsLow], rfl, matches_of_and (wordXYN_and_op _ _ _ _)⟩

theorem ldImm (x : Reg) (nn : Byte) : Statement (.ldImm x nn) :=
  ⟨⟨9, "LD_Vx__nn", 0x6000, 0xF000⟩, by simp [opcodeTable, opcodeRowsLow], rfl, matches_of_and (wordXNN_and_op _ _ _)⟩

theorem addImm (x : Reg) (nn : Byte) : Statement (.addImm x nn) :=
  ⟨⟨10, "ADD_Vx__nn", 0x7000, 0xF000⟩, by simp [opcodeTable, opcodeRowsLow], rfl, matches_of_and (wordXNN_and_op _ _ _)⟩

theorem ldReg (x : Reg) (y : Reg) : Statement (.ldReg x y) :=
  ⟨⟨11, "LD_Vx__Vy", 0x8000, 0xF00F⟩, by simp [opcodeTable, opcodeRowsLow], rfl, matches_of_and (wordXYN_and_code _ _ _ _)⟩

theorem orReg (x : Reg) (y : Reg) : Statement (.orReg x y) :=
  ⟨⟨12, "OR_Vx__Vy", 0x8001, 0xF00F⟩, by simp [opcodeTable, opcodeRowsLow], rfl, matches_of_and (wordXYN_and_code _ _ _ _)⟩

theorem andReg (x : Reg) (y : Reg) : Statement (.andReg x y) :=
  ⟨⟨13, "AND_Vx__Vy", 0x8002, 0xF00F⟩, by simp [opcodeTable, opcodeRowsLow], rfl, matches_of_and (wordXYN_and_code _ _ _ _)⟩

theorem xorReg (x : Reg) (y : Reg) : Statement (.xorReg x y) :=
  ⟨⟨14, "XOR_Vx__Vy", 0x8003, 0xF00F⟩, by simp [opcodeTable, opcodeRowsLow], rfl, matches_of_and (wordXYN_and_code _ _ _ _)⟩

theorem addReg (x : Reg) (y : Reg) : Statement (.addReg x y) :=
  ⟨⟨15, "ADD_Vx__Vy", 0x8004, 0xF00F⟩, by simp [opcodeTable, opcodeRowsLow], rfl, matches_of_and (wordXYN_and_code _ _ _ _)⟩

theorem subReg (x : Reg) (y : Reg) : Statement (.subReg x y) :=
  ⟨⟨16, "SUB_Vx__Vy", 0x8005, 0xF00F⟩, by simp [opcodeTable, opcodeRowsLow], rfl, matches_of_and (wordXYN_and_code _ _ _ _)⟩

theorem shr (x : Reg) (y : Reg) : Statement (.shr x y) :=
  ⟨⟨17, "SHR_Vx", 0x8006, 0xF00F⟩, by simp [opcodeTable, opcodeRowsLow], rfl, matches_of_and (wordXYN_and_code _ _ _ _)⟩

theorem subnReg (x : Reg) (y : Reg) : Statement (.subnReg x y) :=
  ⟨⟨18, "SUBN_Vx__Vy", 0x8007, 0xF00F⟩, by simp [opcodeTable, opcodeRowsLow], rfl, matches_of_and (wordXYN_and_code _ _ _ _)⟩

theorem shl (x : Reg) (y : Reg) : Statement (.shl x y) :=
  ⟨⟨19, "SHL_Vx", 0x800E, 0xF00F⟩, by simp [opcodeTable, opcodeRowsLow], rfl, matches_of_and (wordXYN_and_code _ _ _ _)⟩

theorem undef8 (x : Reg) (y : Reg) (n : Nibble) : Statement (.undef8 x y n) :=
  ⟨⟨20, "UNDEF8", 0x8000, 0xF000⟩, by simp [opcodeTable, opcodeRowsLow], rfl, matches_of_and (wordXYN_and_op _ _ _ _)⟩

theorem sneReg (x : Reg) (y : Reg) (n : Nibble) : Statement (.sneReg x y n) :=
  ⟨⟨21, "SNE_Vx__Vy", 0x9000, 0xF000⟩, by simp [opcodeTable, opcodeRowsHigh], rfl, matches_of_and (wordXYN_and_op _ _ _ _)⟩

theorem ldI (nnn : Addr12) : Statement (.ldI nnn) :=
  ⟨⟨22, "LD_I__nnn", 0xA000, 0xF000⟩, by simp [opcodeTable, opcodeRowsHigh], rfl, matches_of_and (wordNNN_and _ _)⟩

theorem jpV0 (nnn : Addr12) : Statement (.jpV0 nnn) :=
  ⟨⟨23, "JP_V0__nnn", 0xB000, 0xF000⟩, by simp [opcodeTable, opcodeRowsHigh], rfl, matches_of_and (wordNNN_and _ _)⟩

theorem rnd (x : Reg) (nn : Byte) : Statement (.rnd x nn) :=
  ⟨⟨24, "RND_Vx__nn", 0xC000, 0xF000⟩, by simp [opcodeTable, opcodeRowsHigh], rfl, matches_of_and (wordXNN_and_op _ _ _)⟩

theorem drw (x : Reg) (y : Reg) (n : Nibble) : Statement (.drw x y n) :=
  ⟨⟨25, "DRW_Vx__Vy__n", 0xD000, 0xF000⟩, by simp [opcodeTable, opcodeRowsHigh], rfl, matches_of_and (wordXYN_and_op _ _ _ _)⟩

theorem skp (x : Reg) : Statement (.skp x) :=
  ⟨⟨26, "SKP_Vx", 0xE09E, 0xF0FF⟩, by simp [opcodeTable, opcodeRowsHigh], rfl, matches_of_and (wordXNN_and_code _ _ _)⟩

theorem sknp (x : Reg) : Statement (.sknp x) :=
  ⟨⟨27, "SKNP_Vx", 0xE0A1, 0xF0FF⟩, by simp [opcodeTable, opcodeRowsHigh], rfl, matches_of_and (wordXNN_and_code _ _ _)⟩

theorem undefE (x : Reg) (nn : Byte) : Statement (.undefE x nn) :=
  ⟨⟨28, "UNDEFE", 0xE000, 0xF000⟩, by simp [opcodeTable, opcodeRowsHigh], rfl, matches_of_and (wordXNN_and_op _ _ _)⟩

theorem ldVxDT (x : Reg) : Statement (.ldVxDT x) :=
  ⟨⟨29, "LD_Vx__DT", 0xF007, 0xF0FF⟩, by simp [opcodeTable, opcodeRowsHigh], rfl, matches_of_and (wordXNN_and_code _ _ _)⟩

theorem ldVxK (x : Reg) : Statement (.ldVxK x) :=
  ⟨⟨30, "LD_Vx__K", 0xF00A, 0xF0FF⟩, by simp [opcodeTable, opcodeRowsHigh], rfl, matches_of_and (wordXNN_and_code _ _ _)⟩

theorem ldDTVx (x : Reg) : Statement (.ldDTVx x) :=
  ⟨⟨31, "LD_DT__Vx", 0xF015, 0xF0FF⟩, by simp [opcodeTable, opcodeRowsHigh], rfl, matches_of_and (wordXNN_and_code _ _ _)⟩

theorem ldSTVx (x : Reg) : Statement (.ldSTVx x) :=
  ⟨⟨32, "LD_ST__Vx", 0xF018, 0xF0FF⟩, by simp [opcodeTable, opcodeRowsHigh], rfl, matches_of_and (wordXNN_and_code _ _ _)⟩

theorem addI (x : Reg) : Statement (.addI x) :=
  ⟨⟨33, "ADD_I__Vx", 0xF01E, 0xF0FF⟩, by simp [opcodeTable, opcodeRowsHigh], rfl, matches_of_and (wordXNN_and_code _ _ _)⟩

theorem ldFVx (x : Reg) : Statement (.ldFVx x) :=
  ⟨⟨34, "LD_F__Vx", 0xF029, 0xF0FF⟩, by simp [opcodeTable, opcodeRowsHigh], rfl, matches_of_and (wordXNN_and_code _ _ _)⟩

theorem ldBVx (x : Reg) : Statement (.ldBVx x) :=
  ⟨⟨35, "LD_B__Vx", 0xF033, 0xF0FF⟩, by simp [opcodeTable, opcodeRowsHigh], rfl, matches_of_and (wordXNN_and_code _ _ _)⟩

theorem storeRegs (x : Reg) : Statement (.storeRegs x) :=
  ⟨⟨36, "LD__I___Vx", 0xF055, 0xF0FF⟩, by simp [opcodeTable, opcodeRowsHigh], rfl, matches_of_and (wordXNN_and_code _ _ _)⟩

theorem loadRegs (x : Reg) : Statement (.loadRegs x) :=
  ⟨⟨37, "LD_Vx___I", 0xF065, 0xF0FF⟩, by simp [opcodeTable, opcodeRowsHigh], rfl, matches_of_and (wordXNN_and_code _ _ _)⟩

theorem undefF (x : Reg) (nn : Byte) : Statement (.undefF x nn) :=
  ⟨⟨38, "UNDEFF", 0xF000, 0xF000⟩, by simp [opcodeTable, opcodeRowsHigh], rfl, matches_of_and (wordXNN_and_op _ _ _)⟩

end Sys2Proof.Laws.WordShape
end

