-- ==== Sys2Proof/Laws/Safety.lean ====
section
/-! SUPPORT. The small lemmas of the frame vocabulary of Safety.lean: how a frame is shown part by part, and what the
two ends of a step, `complete` and `takeFault`, give. -/

namespace Sys2Proof.Machine

/-- A frame is shown part by part: each part is named or unchanged. -/
theorem onlyChanges_of {parts : List Part} {s t : State} (h : ∀ p, p ∈ parts ∨ Same p s t) : OnlyChanges parts s t :=
  fun p hp => (h p).resolve_left hp

/-- A register read depends on the register file alone. -/
theorem reg_congr {s t : State} (h : t.v = s.v) (r : Reg) : t.reg r = s.reg r := by
  simp only [State.reg, h]

/-- A completed step ends at its target, whatever else was written before. -/
theorem endsAt_complete {u s : State} (h : u.pc = s.pc) (target : Word) (d : Diag) :
    EndsAt target d s (complete target d u) := by
  simp only [EndsAt, complete_pc, complete_outputs, h, true_and]
  rfl

/-- A step that only completes changes nothing but PC and the outputs. -/
theorem onlyChanges_complete (target : Word) (d : Diag) (s : State) :
    OnlyChanges [.pc, .outputs] s (complete target d s) :=
  onlyChanges_of fun p => by cases p <;> simp [Same]

/-- The fault entry is the fault of rule R167. -/
theorem faulted_takeFault {c : FaultCause} {a : Nat} (h : a < 2 ^ 17) (s : State) : Faulted c a s (takeFault c a s) := by
  refine ⟨rfl, rfl, ?_, rfl, onlyChanges_of fun p => by cases p <;> simp [Same]⟩
  simp only [takeFault_faddr, BitVec.toNat_ofNat, Nat.mod_eq_of_lt h]

end Sys2Proof.Machine
end

