-- ==== Sys2Proof/Laws/Step.lean ====
section
/-! SUPPORT. The inversion lemmas of `exec` and `step`: everything an instruction, and a step, can do to the parts of
the state that the machine's invariants speak of. Later proofs cite these and do not split over the 38 arms again. -/

namespace Sys2Proof.Machine

/-- The call stack of the state that an instruction completes from (`10_state.md` rule R14): kept, pushed with
pc0 + 2 below depth 12, or popped. -/
def StackMove (s u : State) (target : Word) : Prop :=
  (u.sp = s.sp ∧ u.stack = s.stack ∧
      (target = s.pc ∨ target = s.pc + 2 ∨ target = s.pc + 4 ∨ (∃ nnn, target = zextAddr nnn) ∨
        ∃ nnn b, target = zextAddr nnn + zextByte b)) ∨
    (s.sp.toNat < Config.stackDepth ∧ u.sp = (s.push (s.pc + 2)).sp ∧ u.stack = (s.push (s.pc + 2)).stack ∧
      ∃ nnn, target = zextAddr nnn) ∨
    (s.sp ≠ 0 ∧ u.sp = s.pop.sp ∧ u.stack = s.stack ∧ s.top = some target)

/-- Memory of the state that an instruction completes from: kept, or a block stored inside the legal window. -/
def MemMove (s u : State) : Prop :=
  u.mem = s.mem ∨ ∃ n, (n = 0 ∨ s.i.toNat + n ≤ Config.reservedBase) ∧ u.mem = storeBlock s n

/-- Everything an instruction that completes does to PC, the outputs, the stack, memory and the fault registers. -/
def Completed (s t : State) : Prop :=
  ∃ u target d, t = complete target d u ∧ u.pc = s.pc ∧ u.status = s.status ∧ u.fcause = s.fcause ∧
    u.faddr = s.faddr ∧ StackMove s u target ∧ MemMove s u

/-- Everything an instruction that faults does (rule R167). -/
def DataFaulted (s t : State) : Prop :=
  ∃ n c a, checkAddrs .data (s.dataAddrs n) = some (c, a) ∧ t = takeFault c a s

theorem completed_of {s u : State} {target : Word} {d : Diag} (hpc : u.pc = s.pc) (hst : u.status = s.status)
    (hc : u.fcause = s.fcause) (ha : u.faddr = s.faddr) (hs : StackMove s u target) (hm : MemMove s u) :
    Completed s (complete target d u) := ⟨u, target, d, rfl, hpc, hst, hc, ha, hs, hm⟩

/-- An instruction that keeps stack and memory and advances by 2 or 4 (all but the transfers and FX55). -/
theorem completed_plain {s u : State} {target : Word} {d : Diag} (hpc : u.pc = s.pc) (hst : u.status = s.status)
    (hc : u.fcause = s.fcause) (ha : u.faddr = s.faddr) (hsp : u.sp = s.sp) (hstk : u.stack = s.stack)
    (hm : u.mem = s.mem) (ht : target = s.pc ∨ target = s.pc + 2 ∨ target = s.pc + 4) :
    Completed s (complete target d u) :=
  completed_of hpc hst hc ha (.inl ⟨hsp, hstk, by tauto⟩) (.inl hm)

theorem accessing_completes {s done t : State} {n : Nat} (h : accessing .data (s.dataAddrs n) s done = .next t)
    (hd : (n = 0 ∨ s.i.toNat + n ≤ Config.reservedBase) → Completed s done) : DataFaulted s t ∨ Completed s t := by
  rcases accessing_cases h with ⟨c, a, hc, rfl⟩ | ⟨hc, rfl⟩
  · exact .inl ⟨n, c, a, hc, rfl⟩
  · exact .inr (hd (checkAddrs_dataAddrs_eq_none.mp hc))

/-- The inversion of `exec`. -/
theorem exec_cases {i : Instr} {s t : State} (h : exec i s = .next t) : DataFaulted s t ∨ Completed s t := by
  cases i with
  | ret =>
    simp only [exec, execRet] at h
    split at h
    · cases h; exact .inr (completed_plain rfl rfl rfl rfl rfl rfl rfl (by simp))
    · next hsp =>
      split at h
      · next a ha => cases h; exact .inr (completed_of rfl rfl rfl rfl (.inr (.inr ⟨hsp, rfl, rfl, ha⟩)) (.inl rfl))
      · cases h
  | call nnn =>
    simp only [exec, execCall] at h
    split at h
    · next hsp => cases h; exact .inr (completed_of rfl rfl rfl rfl (.inr (.inl ⟨hsp, rfl, rfl, nnn, rfl⟩)) (.inl rfl))
    · cases h; exact .inr (completed_plain rfl rfl rfl rfl rfl rfl rfl (by simp))
  | jp nnn =>
    cases h; exact .inr (completed_of rfl rfl rfl rfl (.inl ⟨rfl, rfl, by simp⟩) (.inl rfl))
  | jpV0 nnn =>
    cases h
    exact .inr (completed_of rfl rfl rfl rfl (.inl ⟨rfl, rfl, .inr (.inr (.inr (.inr ⟨nnn, _, rfl⟩)))⟩) (.inl rfl))
  | drw x y n =>
    exact accessing_completes h fun _ => completed_plain rfl rfl rfl rfl rfl rfl rfl (by simp)
  | storeRegs x =>
    exact accessing_completes h fun hn =>
      completed_of rfl rfl rfl rfl (.inl ⟨rfl, rfl, by simp⟩) (.inr ⟨x.val, hn, rfl⟩)
  | loadRegs x =>
    exact accessing_completes h fun _ => completed_plain rfl rfl rfl rfl rfl rfl rfl (by simp)
  | seImm | sneImm | seReg | sneReg =>
    cases h; exact .inr (completed_plain rfl rfl rfl rfl rfl rfl rfl (by split <;> simp))
  | cls | sys | ldImm | addImm | ldReg | orReg | andReg | xorReg | addReg | subReg | shr | subnReg | shl | undef8 | ldI
  | rnd | skp | sknp | undefE | ldVxDT | ldVxK | ldDTVx | ldSTVx | addI | ldFVx | ldBVx | undefF =>
    cases h; exact .inr (completed_plain rfl rfl rfl rfl rfl rfl rfl (.inr (.inl rfl)))

/-- An instruction answers a next state wherever SP is legal: the only stop is RET above depth 12 (log entry 4). -/
theorem exec_stops_only_at_ret {i : Instr} {s : State} {r : Fault} (h : exec i s = .fault r) :
    i = .ret ∧ Config.stackDepth < s.sp.toNat ∧ r = .stackDepthOutOfRange := by
  have hacc : ∀ k l (s done : State), accessing k l s done ≠ .fault r := by
    intro k l s done hc; unfold accessing at hc; split at hc <;> cases hc
  cases i with
  | ret =>
    simp only [exec, execRet] at h
    split at h
    · cases h
    · next hsp =>
      split at h
      · cases h
      · next htop =>
        cases h
        refine ⟨rfl, ?_, rfl⟩
        by_contra hle
        have h0 : s.sp.toNat ≠ 0 := fun h' => hsp (BitVec.eq_of_toNat_eq (by simpa using h'))
        rw [top_eq (by simp only [Config.stackDepth] at hle; omega)] at htop
        cases htop
  | call nnn => simp only [exec, execCall] at h; split at h <;> cases h
  | drw | storeRegs | loadRegs => exact absurd h (hacc _ _ _ _)
  | cls | sys | jp | jpV0 | seImm | sneImm | seReg | sneReg | ldImm | addImm | ldReg | orReg | andReg | xorReg | addReg
  | subReg | shr | subnReg | shl | undef8 | ldI | rnd | skp | sknp | undefE | ldVxDT | ldVxK | ldDTVx | ldSTVx | addI
  | ldFVx | ldBVx | undefF => cases h

/-- No instruction is refused. -/
theorem exec_not_refused {i : Instr} {s : State} {r : Refusal} : exec i s ≠ .refused r := by
  have hacc : ∀ k l (s done : State), accessing k l s done ≠ .refused r := by
    intro k l s done hc; unfold accessing at hc; split at hc <;> cases hc
  intro h
  cases i with
  | ret => simp only [exec, execRet] at h; split at h <;> [skip; split at h] <;> cases h
  | call nnn => simp only [exec, execCall] at h; split at h <;> cases h
  | drw | storeRegs | loadRegs => exact hacc _ _ _ _ h
  | cls | sys | jp | jpV0 | seImm | sneImm | seReg | sneReg | ldImm | addImm | ldReg | orReg | andReg | xorReg | addReg
  | subReg | shr | subnReg | shl | undef8 | ldI | rnd | skp | sknp | undefE | ldVxDT | ldVxK | ldDTVx | ldSTVx | addI
  | ldFVx | ldBVx | undefF => cases h

/-- The fetch check passes exactly for PC at most 0xE9E (`20_memory.md` rule R34). -/
theorem fetchCheck_eq_none {s : State} : fetchCheck s = none ↔ s.pc.toNat + 1 < Config.reservedBase := by
  simp only [fetchCheck, checkAddrs_eq_none, State.fetchAddr, List.forall_mem_cons, Config.reservedBase]
  constructor
  · rintro ⟨-, h, -⟩; exact h
  · intro h; exact ⟨by omega, h, by simp⟩

/-- The inversion of `step`: a faulted core stays as it is, a fetch faults, or the decoded instruction is executed. -/
theorem step_cases (s : State) :
    (s.status = .fault ∧ step s = .next s) ∨
      (s.status = .run ∧ ∃ c a, fetchCheck s = some (c, a) ∧ step s = .next (takeFault c a s)) ∨
      (s.status = .run ∧ fetchCheck s = none ∧ step s = exec (decodeWord (fetchWord s)) s) := by
  unfold step
  cases hs : s.status with
  | fault => exact .inl ⟨rfl, rfl⟩
  | run =>
    cases hf : fetchCheck s with
    | none => exact .inr (.inr ⟨rfl, rfl, rfl⟩)
    | some p => exact .inr (.inl ⟨rfl, p.1, p.2, rfl, rfl⟩)

end Sys2Proof.Machine
end

