-- ==== Sys2Proof/Tests/Slice0.lean ====
section
/-! SUPPORT. The model's own tests. Every expected value comes from the spec: the words of the decode tests are written
out from the encodings of `30_encoding.md` rule R61, the step tests are vectors of `95_test_vectors.md` (named in the
docstring). The witness_ theorems show, for each obligation with hypotheses, a concrete state and operands that meet
them, one for each clause and at the boundary values. -/

namespace Sys2Proof.Tests

open Sys2Proof Sys2Proof.Machine

/-! ### Helpers -/

/-- The reset state with some registers set. -/
def regs (l : List (Reg × Byte)) : State := l.foldl (fun s p => s.setReg p.1 p.2) State.reset

/-- Bytes placed in memory from an address upward. -/
def withBytes (a : Nat) (bs : List Byte) (s : State) : State := { s with mem := writeImage bs a s.mem }

/-- Some observations of the state after one step with the word at PC. -/
def after {α : Type} (w : Word) (s : State) (f : State → α) : Option α :=
  match step (s.withFetchWord 16 w.toNat) with
  | .next t => some (f t)
  | .fault _ => none
  | .refused _ => none

/-- What a fault writes, PC, and the outputs. -/
structure FaultView where
  status : Status
  fcause : FaultCause
  faddr : Nat
  pc : Word
  outputs : Option StepOutputs
  deriving DecidableEq, Repr

def faultView (s : State) : FaultView := ⟨s.status, s.fcause, s.faddr.toNat, s.pc, s.outputs⟩

/-- What an instruction without effect must leave, and its PC and diagnostic. -/
structure Quiet where
  pc : Word
  v1 : Byte
  v2 : Byte
  vf : Byte
  i : Word
  sp : BitVec 8
  diag : Option Diag
  deriving DecidableEq, Repr

def quiet (s : State) : Quiet := ⟨s.pc, s.reg 1, s.reg 2, s.reg VF, s.i, s.sp, s.outputs.map (fun o => o.diag)⟩

/-- A state whose registers are not zero, for instructions that must leave them. -/
def busy : State := { regs [(1, 0x01), (2, 0x02), (15, 0x03)] with i := 0x0123 }

/-- A stack of the given depth with the entries 0x0300, 0x0302, ... -/
def calls (sp : BitVec 8) (s : State) : State :=
  { s with sp := sp, stack := Vector.ofFn fun k => 0x0300 + 2 * BitVec.ofNat 16 k.val }

/-! ### WellFormed: each check refuses an ill-formed term -/

/-- 0x00E0 is CLS and 0x00EE is RET (rule R56). -/
theorem test_wf_refuses_sys :
    Instr.wf (.sys 0x0E0) = false ∧ Instr.wf (.sys 0x0EE) = false := by decide

/-- 8XY0, 8XY7 and 8XYE are defined (rule R59). -/
theorem test_wf_refuses_undef8 :
    Instr.wf (.undef8 1 2 0x0) = false ∧ Instr.wf (.undef8 1 2 0x7) = false ∧ Instr.wf (.undef8 1 2 0xE) = false := by decide

/-- EX9E and EXA1 are recognised (rule R59). -/
theorem test_wf_refuses_undefE :
    Instr.wf (.undefE 1 0x9E) = false ∧ Instr.wf (.undefE 1 0xA1) = false := by decide

/-- FX07 and FX65 are recognised (rule R59). -/
theorem test_wf_refuses_undefF :
    Instr.wf (.undefF 1 0x07) = false ∧ Instr.wf (.undefF 1 0x65) = false := by decide

/-! ### Decode: one word of every row, written out from rule R61 -/

theorem test_decode_family0_1_2 :
    decodeWord 0x00E0 = .cls ∧
      decodeWord 0x00EE = .ret ∧
      decodeWord 0x0123 = .sys 0x123 ∧
      decodeWord 0x00E1 = .sys 0x0E1 ∧
      decodeWord 0x1ABC = .jp 0xABC ∧
      decodeWord 0x2456 = .call 0x456 := by decide

theorem test_decode_skips :
    decodeWord 0x3A42 = .seImm 10 0x42 ∧
      decodeWord 0x4A43 = .sneImm 10 0x43 ∧
      decodeWord 0x5AB7 = .seReg 10 11 7 ∧
      decodeWord 0x912F = .sneReg 1 2 15 := by decide

theorem test_decode_family6_7_A_B_C :
    decodeWord 0x6FAB = .ldImm 15 0xAB ∧
      decodeWord 0x7501 = .addImm 5 0x01 ∧
      decodeWord 0xAFFE = .ldI 0xFFE ∧
      decodeWord 0xB301 = .jpV0 0x301 ∧
      decodeWord 0xC30F = .rnd 3 0x0F := by decide

theorem test_decode_family8 :
    decodeWord 0x8120 = .ldReg 1 2 ∧
      decodeWord 0x8121 = .orReg 1 2 ∧
      decodeWord 0x8122 = .andReg 1 2 ∧
      decodeWord 0x8123 = .xorReg 1 2 ∧
      decodeWord 0x8FE4 = .addReg 15 14 ∧
      decodeWord 0x8FE5 = .subReg 15 14 ∧
      decodeWord 0x8AB6 = .shr 10 11 ∧
      decodeWord 0x8127 = .subnReg 1 2 ∧
      decodeWord 0x81FE = .shl 1 15 ∧
      decodeWord 0x8128 = .undef8 1 2 8 ∧
      decodeWord 0x812F = .undef8 1 2 15 := by decide

theorem test_decode_familyD_E :
    decodeWord 0xD125 = .drw 1 2 5 ∧
      decodeWord 0xE59E = .skp 5 ∧
      decodeWord 0xE0A1 = .sknp 0 ∧
      decodeWord 0xE19F = .undefE 1 0x9F := by decide

theorem test_decode_familyF :
    decodeWord 0xF307 = .ldVxDT 3 ∧
      decodeWord 0xF40A = .ldVxK 4 ∧
      decodeWord 0xF515 = .ldDTVx 5 ∧
      decodeWord 0xF618 = .ldSTVx 6 ∧
      decodeWord 0xF21E = .addI 2 ∧
      decodeWord 0xF329 = .ldFVx 3 ∧
      decodeWord 0xFE33 = .ldBVx 14 ∧
      decodeWord 0xF255 = .storeRegs 2 ∧
      decodeWord 0xF165 = .loadRegs 1 ∧
      decodeWord 0xF375 = .undefF 3 0x75 := by decide

/-- V30-1: the byte at the lower address is the high byte of the word. -/
theorem test_decode_bytes_big_endian :
    decode [0x12, 0x34, 0x56] = .ok (.jp 0x234, [0x56]) := by decide

theorem test_decode_rejects_truncated :
    decode [0x12] = .error .truncated ∧ decode [] = .error .truncated := by decide

theorem test_decode_table_word :
    decodeTableWord 16 0xD125 = some (.drw 1 2 5) ∧ decodeTableWord 16 0x00EE = some .ret ∧
      encode (.drw 1 2 5) = [0xD1, 0x25] := by decide

/-! ### Memory -/

/-- Addresses strictly rising (log entry 8). -/
theorem test_memory_canonical :
    ((Memory.write [] 0x301 7).write 0x300 9).write 0x302 1 = [(0x300, 9), (0x301, 7), (0x302, 1)] := by decide

/-- Writing the unlisted value removes the entry. -/
theorem test_memory_zero_removes :
    ((Memory.write [] 0x301 7).write 0x301 0) = [] ∧ Memory.wf (Memory.write [] 0xFFF 7) := by decide

/-! ### Fetch and step (V30) -/

/-- V30-2. -/
theorem test_step_odd_pc :
    after 0x6007 { State.reset with pc := 0x201 } (fun t => (t.reg 0, t.pc)) = some (0x07, 0x203) := by decide

/-- V30-5. -/
theorem test_step_last_legal_fetch :
    after 0x0000 { State.reset with pc := 0xE9E } faultView =
      some ⟨.run, .none, 0, 0xEA0, some ⟨.none, false⟩⟩ := by decide

/-- The fault registers after one step at PC. -/
def fetchAt (pc : Word) : Option FaultView :=
  match step { State.reset with pc := pc } with
  | .next t => some (faultView t)
  | .fault _ => none
  | .refused _ => none

/-- V30-6 to V30-9: the first failing byte decides. -/
theorem test_fetch_faults :
    fetchAt 0xE9F = some ⟨.fault, .fetchReserved, 0xEA0, 0xE9F, none⟩ ∧
      fetchAt 0xEA0 = some ⟨.fault, .fetchReserved, 0xEA0, 0xEA0, none⟩ ∧
      fetchAt 0xFFF = some ⟨.fault, .fetchReserved, 0xFFF, 0xFFF, none⟩ ∧
      fetchAt 0x1000 = some ⟨.fault, .fetchRange, 0x1000, 0x1000, none⟩ := by decide

/-- As V30-11, with three steps. -/
theorem test_run_ends_by_budget :
    (run 3 State.reset).steps = 3 ∧ (run 3 State.reset).reason = .budget ∧ (run 3 State.reset).final.pc = 0x206 := by decide

/-- `JP 0x200` at 0x200 (V40-8): the run ends with NO_PROGRESS. -/
theorem test_run_ends_at_halt :
    let e := run 5 (State.reset.loadImage [0x12, 0x00])
    e.steps = 1 ∧ e.reason = .noProgress ∧ e.final.pc = 0x200 := by decide

/-! ### Control transfer (V40) -/

/-- V40-1. -/
theorem test_sys :
    after 0x0123 busy quiet = some ⟨0x202, 1, 2, 3, 0x123, 0, some .none⟩ := by decide

/-- V40-2. -/
theorem test_ret_pops :
    after 0x00EE (calls 2 State.reset) (fun t => (t.sp, t.pc, t.stack.get 0)) = some (1, 0x302, 0x300) := by decide

/-- V40-3. -/
theorem test_ret_underflow :
    after 0x00EE State.reset (fun t => (t.sp, t.pc, t.outputs)) =
      some (0, 0x200, some ⟨.stackUnderflow, true⟩) := by decide

/-- V40-4. -/
theorem test_jp :
    after 0x1ABC State.reset (fun t => t.pc) = some 0xABC := by decide

/-- V40-5. -/
theorem test_call_twelfth :
    after 0x2456 (calls 11 State.reset) (fun t => (t.sp, t.pc, t.stack.get 11, t.stack.get 10)) =
      some (12, 0x456, 0x202, 0x314) := by decide

/-- V40-13. -/
theorem test_call_dropped :
    after 0x2456 (calls 12 State.reset) (fun t => (t.sp, t.pc, t.stack.get 11, t.outputs)) =
      some (12, 0x202, 0x316, some ⟨.none, false⟩) := by decide

/-- V40-6. -/
theorem test_jpV0_does_not_add_pc :
    after 0xB300 { regs [(0, 0x10)] with pc := 0x250 } (fun t => t.pc) = some 0x310 := by decide

/-- V40-7. -/
theorem test_jpV0_is_not_masked :
    after 0xBFFF (regs [(0, 0xFF)]) (fun t => t.pc) = some 0x10FE := by decide

/-! ### Skips (V41) -/

/-- V41-1, V41-2. -/
theorem test_seImm :
    after 0x3A42 (regs [(10, 0x42)]) (fun t => t.pc) = some 0x204 ∧
      after 0x3A42 (regs [(10, 0x43)]) (fun t => t.pc) = some 0x202 := by decide

/-- V41-3, V41-4. -/
theorem test_sneImm :
    after 0x4A42 (regs [(10, 0x42)]) (fun t => t.pc) = some 0x202 ∧
      after 0x4A42 (regs [(10, 0x43)]) (fun t => t.pc) = some 0x204 := by decide

/-- V41-5, V41-6. -/
theorem test_seReg :
    after 0x5120 (regs [(1, 7), (2, 7)]) (fun t => t.pc) = some 0x204 ∧
      after 0x5127 (regs [(1, 7), (2, 8)]) (fun t => t.pc) = some 0x202 := by decide

/-- V41-7, V41-8. -/
theorem test_sneReg :
    after 0x9120 (regs [(1, 7), (2, 8)]) (fun t => t.pc) = some 0x204 ∧
      after 0x912F (regs [(1, 7), (2, 7)]) (fun t => t.pc) = some 0x202 := by decide

/-! ### Immediate, index, random (V42) -/

/-- V42-1. -/
theorem test_ldImm :
    after 0x6FAB State.reset (fun t => (t.reg VF, t.pc)) = some (0xAB, 0x202) := by decide

/-- V42-2. -/
theorem test_addImm_no_carry_flag :
    after 0x7501 (regs [(5, 0xFF), (15, 0x77)]) (fun t => (t.reg 5, t.reg VF)) = some (0, 0x77) := by decide

/-- V42-3. -/
theorem test_addImm_on_vf :
    after 0x7F10 (regs [(15, 0xF8)]) (fun t => t.reg VF) = some 0x08 := by decide

/-- V42-4; the top nibble of I is replaced too. -/
theorem test_ldI :
    after 0xAFFF { State.reset with i := 0xF000 } (fun t => (t.i, t.pc)) = some (0x0FFF, 0x202) := by decide

/-- V42-5 to V42-8: whatever byte is drawn. -/
theorem test_rnd :
    after 0xC30F State.reset (fun t => (t.reg 3, t.draws, t.pc)) = some (Config.rnd 0 &&& 0x0F, 1, 0x202) := rfl

/-! ### ALU (V43) -/

/-- V43-1. -/
theorem test_ldReg :
    after 0x8120 (regs [(1, 0x01), (2, 0x5A), (15, 0x09)]) (fun t => (t.reg 1, t.reg 2, t.reg VF)) = some (0x5A, 0x5A, 0x09) := by decide

/-- V43-2. -/
theorem test_orReg :
    after 0x8121 (regs [(1, 0xF0), (2, 0x0F), (15, 0x09)]) (fun t => (t.reg 1, t.reg 2, t.reg VF)) = some (0xFF, 0x0F, 0x09) := by decide

/-- V43-3. -/
theorem test_andReg :
    after 0x8122 (regs [(1, 0xF3), (2, 0x3C), (15, 0x09)]) (fun t => (t.reg 1, t.reg 2, t.reg VF)) = some (0x30, 0x3C, 0x09) := by decide

/-- V43-4. -/
theorem test_xorReg :
    after 0x8123 (regs [(1, 0xFF), (2, 0x0F), (15, 0x09)]) (fun t => (t.reg 1, t.reg 2, t.reg VF)) = some (0xF0, 0x0F, 0x09) := by decide

/-- V43-5, V43-6. -/
theorem test_addReg :
    after 0x8124 (regs [(1, 0xFF), (2, 0x01), (15, 0x00)]) (fun t => (t.reg 1, t.reg 2, t.reg VF)) = some (0x00, 0x01, 0x01) ∧
      after 0x8124 (regs [(1, 0x80), (2, 0x7F), (15, 0x01)]) (fun t => (t.reg 1, t.reg 2, t.reg VF)) = some (0xFF, 0x7F, 0x00) := by decide

/-- V43-7, V43-8. -/
theorem test_subReg :
    after 0x8125 (regs [(1, 0x10), (2, 0x10), (15, 0x00)]) (fun t => (t.reg 1, t.reg 2, t.reg VF)) = some (0x00, 0x10, 0x01) ∧
      after 0x8125 (regs [(1, 0x10), (2, 0x11), (15, 0x01)]) (fun t => (t.reg 1, t.reg 2, t.reg VF)) = some (0xFF, 0x11, 0x00) := by decide

/-- V43-9, V43-10. -/
theorem test_shr :
    after 0x8126 (regs [(1, 0x03), (2, 0xF0), (15, 0x00)]) (fun t => (t.reg 1, t.reg 2, t.reg VF)) = some (0x01, 0xF0, 0x01) ∧
      after 0x8126 (regs [(1, 0x80), (2, 0xFF), (15, 0x01)]) (fun t => (t.reg 1, t.reg 2, t.reg VF)) = some (0x40, 0xFF, 0x00) := by decide

/-- V43-11, V43-12. -/
theorem test_subnReg :
    after 0x8127 (regs [(1, 0x10), (2, 0x30), (15, 0x00)]) (fun t => (t.reg 1, t.reg 2, t.reg VF)) = some (0x20, 0x30, 0x01) ∧
      after 0x8127 (regs [(1, 0x30), (2, 0x10), (15, 0x01)]) (fun t => (t.reg 1, t.reg 2, t.reg VF)) = some (0xE0, 0x10, 0x00) := by decide

/-- V43-13, V43-14. -/
theorem test_shl :
    after 0x812E (regs [(1, 0x81), (2, 0x44), (15, 0x00)]) (fun t => (t.reg 1, t.reg 2, t.reg VF)) = some (0x02, 0x44, 0x01) ∧
      after 0x812E (regs [(1, 0x7F), (2, 0x44), (15, 0x01)]) (fun t => (t.reg 1, t.reg 2, t.reg VF)) = some (0xFE, 0x44, 0x00) := by decide

/-- V43-15, V43-16, V43-19: X = F. -/
theorem test_flag_lost_add_sub :
    after 0x8FE4 (regs [(15, 0xFF), (14, 0x03)]) (fun t => t.reg VF) = some 0x02 ∧
      after 0x8FE5 (regs [(15, 0x05), (14, 0x06)]) (fun t => t.reg VF) = some 0xFF ∧
      after 0x8FE7 (regs [(15, 0x05), (14, 0x09)]) (fun t => t.reg VF) = some 0x04 := by decide

/-- V43-17, V43-18: X = F. -/
theorem test_flag_lost_shifts :
    after 0x8F06 (regs [(15, 0x05)]) (fun t => t.reg VF) = some 0x02 ∧
      after 0x8F0E (regs [(15, 0x81)]) (fun t => t.reg VF) = some 0x02 := by decide

/-- V43-20: Y = F. -/
theorem test_add_reads_old_vf :
    after 0x81F4 (regs [(1, 0xFF), (15, 0x01)]) (fun t => (t.reg 1, t.reg VF)) = some (0x00, 0x01) := by decide

/-- V43-24. -/
theorem test_undef8 :
    after 0x8128 busy quiet = some ⟨0x202, 1, 2, 3, 0x123, 0, some .undefinedInstruction⟩ := by decide

/-! ### Display (V44) -/

/-- The reset state with I, some registers, and bytes at I. -/
def sprite (i : Word) (bs : List Byte) (l : List (Reg × Byte)) : State :=
  withBytes i.toNat bs { regs l with i := i }

/-- Rows of the framebuffer, VF, and what a fault writes. -/
structure DrawView where
  rows : List PixelRow
  vf : Byte
  status : Status
  fcause : FaultCause
  faddr : Nat
  deriving DecidableEq, Repr

def drawView (rows : List (Fin 32)) (s : State) : DrawView :=
  ⟨rows.map (fun r => s.fb.get r), s.reg VF, s.status, s.fcause, s.faddr.toNat⟩

/-- V44-1: VF is not written. -/
theorem test_cls :
    after 0x00E0 { regs [(15, 1)] with fb := Vector.replicate 32 0xFF00 } (drawView [0, 31]) =
      some ⟨[0, 0], 0x01, .run, .none, 0⟩ := by decide

/-- V44-2. -/
theorem test_drw_glyph :
    after 0xD125 (sprite 0x300 [0xF0, 0x90, 0x90, 0x90, 0xF0] [(1, 4), (2, 2)]) (drawView [1, 2, 3, 6, 7]) =
      some ⟨[0, 0x0F00000000000000, 0x0900000000000000, 0x0F00000000000000, 0], 0, .run, .none, 0⟩ := by decide

/-- V44-3, V44-5. -/
theorem test_drw_right_edge :
    after 0xD121 (sprite 0x300 [0xFF] [(1, 60), (15, 1)]) (drawView [0]) = some ⟨[0xF], 0, .run, .none, 0⟩ ∧
      after 0xD121 (sprite 0x300 [0xFF] [(1, 64), (15, 1)]) (drawView [0]) = some ⟨[0], 0, .run, .none, 0⟩ := by decide

/-- V44-8. -/
theorem test_drw_collision :
    after 0xD121 { sprite 0x300 [0x3C] [(1, 6), (2, 5)] with fb := Vector.replicate 32 0x00FF000000000000 }
      (drawView [5, 6]) = some ⟨[0x000F000000000000, 0x00FF000000000000], 1, .run, .none, 0⟩ := by decide

/-- V44-10. -/
theorem test_drw_position_in_vf :
    after 0xDF11 (sprite 0x300 [0x80] [(15, 8), (1, 1)]) (drawView [1]) =
      some ⟨[0x0080000000000000], 0, .run, .none, 0⟩ := by decide

/-- V44-12. -/
theorem test_drw_faults_before_drawing :
    after 0xD122 (sprite 0xE9F [0x81] [(15, 7)]) (drawView [0]) =
      some ⟨[0], 7, .fault, .dataReserved, 0xEA0⟩ := by decide

/-- V44-13. -/
theorem test_drw_clipped_row_is_not_read :
    after 0xD122 (sprite 0xE9F [0x81] [(2, 31)]) (drawView [31]) =
      some ⟨[0x8100000000000000], 0, .run, .none, 0⟩ := by decide

/-! ### Recognised without effect, and undefined, E and F words (V45) -/

/-- As V45-1. -/
theorem test_skp :
    after 0xE09E busy quiet = some ⟨0x202, 1, 2, 3, 0x123, 0, some .none⟩ := by decide

/-- As V45-2. -/
theorem test_sknp :
    after 0xE0A1 busy quiet = some ⟨0x202, 1, 2, 3, 0x123, 0, some .none⟩ := by decide

/-- As V45-5. -/
theorem test_ldVxDT :
    after 0xF107 busy quiet = some ⟨0x202, 1, 2, 3, 0x123, 0, some .none⟩ := by decide

/-- As V45-6. -/
theorem test_ldVxK :
    after 0xF10A busy quiet = some ⟨0x202, 1, 2, 3, 0x123, 0, some .none⟩ := by decide

/-- As V45-7. -/
theorem test_ldDTVx :
    after 0xF115 busy quiet = some ⟨0x202, 1, 2, 3, 0x123, 0, some .none⟩ := by decide

/-- As V45-8. -/
theorem test_ldSTVx :
    after 0xF118 busy quiet = some ⟨0x202, 1, 2, 3, 0x123, 0, some .none⟩ := by decide

/-- As V45-9. -/
theorem test_ldFVx :
    after 0xF129 busy quiet = some ⟨0x202, 1, 2, 3, 0x123, 0, some .none⟩ := by decide

/-- V45-11: no memory access. -/
theorem test_ldBVx :
    after 0xF333 { regs [(3, 0xFE)] with i := 0xFFF } (fun t => (t.mem, t.status, t.pc)) =
      some ([(0x200, 0xF3), (0x201, 0x33)], .run, 0x202) := by decide

/-- V45-3. -/
theorem test_undefE :
    after 0xE000 busy quiet = some ⟨0x202, 1, 2, 3, 0x123, 0, some .undefinedInstruction⟩ := by decide

/-- V45-13. -/
theorem test_undefF :
    after 0xF375 busy quiet = some ⟨0x202, 1, 2, 3, 0x123, 0, some .undefinedInstruction⟩ := by decide

/-! ### Index arithmetic and block transfer (V46) -/

/-- V46-2, V46-2b. -/
theorem test_addI :
    after 0xF11E { regs [(1, 1), (15, 1)] with i := 0xFFFF } (fun t => (t.i, t.reg VF)) = some (0, 1) ∧
      after 0xF11E { regs [(1, 1)] with i := 0x0FFF } (fun t => (t.i, t.reg VF)) = some (0x1000, 0) := by decide

/-- V46-3: V2 is not stored. -/
theorem test_storeRegs_bound :
    after 0xF255 (sprite 0x300 [0, 0, 0x99] [(0, 0x11), (1, 0x22), (2, 0x33)])
      (fun t => (t.mem.read 0x300, t.mem.read 0x301, t.mem.read 0x302, t.i)) = some (0x11, 0x22, 0x99, 0x300) := by decide

/-- V46-10: no byte is written. -/
theorem test_storeRegs_fault :
    after 0xF355 { regs [(0, 1), (1, 2), (2, 3)] with i := 0xE9E }
      (fun t => (t.mem.read 0xE9E, t.mem.read 0xE9F, t.fcause, t.faddr.toNat)) = some (0, 0, .dataReserved, 0xEA0) := by decide

/-- V46-4: V2 is not loaded. -/
theorem test_loadRegs_bound :
    after 0xF265 (sprite 0x300 [0xAA, 0xBB, 0xCC, 0xDD] [(0, 1), (1, 2), (2, 3), (3, 4)])
      (fun t => (t.reg 0, t.reg 1, t.reg 2, t.reg 3, t.i)) = some (0xAA, 0xBB, 3, 4, 0x300) := by decide

/-- V46-12, V46-15. -/
theorem test_loadRegs_fault :
    after 0xF365 { regs [(0, 9)] with i := 0xFFE } (fun t => (t.reg 0, t.fcause, t.faddr.toNat)) =
      some (9, .dataReserved, 0xFFE) ∧
      after 0xF165 { regs [(0, 9)] with i := 0x1000 } (fun t => (t.reg 0, t.fcause, t.faddr.toNat)) =
      some (9, .dataRange, 0x1000) := by decide

/-! ### Witnesses: the hypotheses of each obligation can be met -/

theorem witness_DecodeOfEncode :
    Instr.wf (.sys 0xFFF) = true ∧ Instr.wf (.undef8 15 15 15) = true ∧ Instr.wf (.undefE 0 0xFF) = true ∧
      Instr.wf (.undefF 0 0x00) = true ∧ Instr.wf .cls = true := by decide

theorem witness_StepRunsDecodedInstruction :
    let s := ({ State.reset with pc := 0xE9E } : State).withFetchWord 16 0xD125
    s.status = .run ∧ s.pc.toNat ≤ 0xE9E ∧
      decode [s.mem.read s.pc.toNat, s.mem.read (s.pc.toNat + 1)] = .ok (.drw 1 2 5, []) := by decide

/-- The reset state at another PC. -/
def atPc (pc : Word) : State := { State.reset with pc := pc }

/-- The reset state with another I. -/
def withI (i : Word) : State := { State.reset with i := i }

/-- Each clause at the bounds of its range of PC. -/
theorem witness_FetchOutsideWindowFaults :
    (∀ pc : Word, (atPc pc).status = .run) ∧ (atPc 0xE9F).pc.toNat = 0xE9F ∧ 0xEA0 ≤ (atPc 0xEA0).pc.toNat ∧
      0xEA0 ≤ (atPc 0xFFF).pc.toNat ∧ (atPc 0xFFF).pc.toNat ≤ 0xFFF ∧ 0x1000 ≤ (atPc 0x1000).pc.toNat ∧
      0x1000 ≤ (atPc 0xFFFF).pc.toNat := ⟨fun _ => rfl, by decide⟩

theorem witness_FaultedCoreIgnoresSteps :
    (takeFault .fetchRange 0x1000 State.reset).status = .fault := by decide

/-- A step that completes, and one that faults. -/
theorem witness_StepFaultsArePrecise :
    (State.reset.status = .run ∧ ∃ t, step State.reset = .next t ∧ t.status = .run) ∧
      ∃ t, step { State.reset with pc := 0xEA0 } = .next t ∧ t.status = .fault := ⟨⟨rfl, _, rfl, by decide⟩, _, rfl, by decide⟩

theorem inv_reset : MachineInv State.reset :=
  ⟨by decide, by decide, by decide, ⟨rfl, rfl⟩⟩

/-- A state with a call stack and memory that has the invariant. -/
def nested : State := withBytes 0x300 [0x00, 0xEE] (calls 12 State.reset)

theorem inv_nested : MachineInv nested :=
  ⟨by decide, by decide, by decide, ⟨rfl, rfl⟩⟩

theorem inv_faulted : MachineInv (takeFault .dataRange 0x1000D State.reset) :=
  ⟨by decide, by decide, by decide, ⟨rfl, .inr ⟨.inr rfl, by decide, by decide⟩⟩⟩

theorem witness_StepKeepsInvariant :
    (MachineInv nested ∧ ∃ t, step nested = .next t) ∧
      (MachineInv (takeFault .dataRange 0x1000D State.reset) ∧ ∃ t, step (takeFault .dataRange 0x1000D State.reset) = .next t) := ⟨⟨inv_nested, _, rfl⟩, inv_faulted, _, rfl⟩

theorem witness_ResetAndLoadHaveInvariant :
    (0x10FE : Word).toNat ≤ 0x10FE ∧ MachineInv nested := ⟨by decide, inv_nested⟩

theorem witness_StepNeverStuck :
    MachineInv nested := inv_nested

/-- As nested with depth 1, but with another stale stack entry, reserved byte and output. -/
def nestedTwin : State :=
  { withBytes 0xEA0 [0x55] nested with
    sp := 1, stack := nested.stack.set 1 0xBEEF, outputs := some ⟨.stackUnderflow, true⟩ }

/-- Two states that are not equal. -/
theorem witness_HiddenStateStaysHidden :
    nested.sp.toNat ≤ 12 ∧ SameToProgram { nested with sp := 1 } nestedTwin ∧ { nested with sp := 1 } ≠ nestedTwin ∧
      ∃ t, step { nested with sp := 1 } = .next t := by
  refine ⟨by decide, ?_, by decide, _, rfl⟩
  refine ⟨by decide, rfl, rfl, rfl, by decide, rfl, ?_, rfl, rfl, rfl, rfl⟩
  intro a ha
  simp only [nestedTwin, withBytes, writeImage]
  rw [Memory.read_write_of_ne _ _ (by simp only [Config.reservedBase] at ha; omega)]

theorem witness_PlacedWordIsExecuted :
    State.reset.status = .run ∧ State.reset.pc.toNat ≤ 0xE9E ∧ (atPc 0xE9E).pc.toNat ≤ 0xE9E := by decide

/-- A short image, and one whose last byte is dropped. -/
theorem witness_ImageLoadsAt0x200 :
    0 < [0x60#8, 0x05#8].length ∧ 3231 < (List.replicate 3233 0#8).length ∧ ¬ 3232 < 3232 := ⟨by decide, by rw [List.length_replicate]; decide, by decide⟩

theorem witness_RunEndsAsDriverSays :
    MachineInv nested ∧ nested.status = .run ∧ MachineInv State.reset ∧ State.reset.status = .run := ⟨inv_nested, rfl, inv_reset, rfl⟩

theorem witness_OnlyBlockStoreWritesMemory :
    ∃ t, exec (.storeRegs 1) { regs [(0, 7)] with i := 0xE9F } = .next t ∧ t.mem.read 0xE9F ≠ State.reset.mem.read 0xE9F := ⟨_, rfl, by decide⟩

theorem witness_SysOnlyAdvances :
    (0x0E1 : Addr12) ≠ 0x0E0 ∧ (0x0E1 : Addr12) ≠ 0x0EE ∧ (0xFFF : Addr12) ≠ 0x0E0 ∧ (0xFFF : Addr12) ≠ 0x0EE := by decide

theorem witness_RetPopsIntoPc :
    State.reset.sp = 0 ∧ (calls 1 State.reset).sp.toNat = (0 : Fin 12).val + 1 ∧
      (calls 12 State.reset).sp.toNat = (11 : Fin 12).val + 1 := by decide

theorem witness_RetAboveDepth12Stops :
    12 < (calls 13 State.reset).sp.toNat ∧ 12 < (calls 255 State.reset).sp.toNat := by decide

theorem witness_CallPushesOrIsDropped :
    State.reset.sp.toNat = (0 : Fin 12).val ∧ (calls 11 State.reset).sp.toNat = (11 : Fin 12).val ∧
      (calls 12 State.reset).sp = 12 := by decide

theorem witness_CallThenRetComesBack :
    let s := (withBytes 0x300 [0x00, 0xEE] (calls 11 State.reset)).withFetchWord 16 0x2300
    s.status = .run ∧ s.sp.toNat < 12 ∧ s.pc.toNat ≤ 0xE9E ∧ (0x300 : Addr12).toNat ≤ 0xE9E ∧
      decodeWord (wordOfBytes (s.mem.read s.pc.toNat) (s.mem.read (s.pc.toNat + 1))) = .call 0x300 ∧
      s.mem.read (0x300 : Addr12).toNat = 0x00 ∧ s.mem.read ((0x300 : Addr12).toNat + 1) = 0xEE := by decide

theorem witness_LiveReturnAddressesKept :
    (∃ t, exec (.call 0x300) (calls 11 State.reset) = .next t ∧ 10 < (calls 11 State.reset).sp.toNat ∧ 10 < t.sp.toNat) ∧
      ∃ t, exec .ret (calls 12 State.reset) = .next t ∧ 10 < t.sp.toNat := ⟨⟨_, rfl, by decide⟩, _, rfl, by decide⟩

theorem witness_PcMovesByInstructionKind :
    (∃ t, exec (.seImm 0 0) State.reset = .next t ∧ t.pc = 0x204) ∧ (∃ t, exec (.jp 0xABC) State.reset = .next t ∧ t.pc = 0xABC) ∧
      ∃ t, exec (.loadRegs 1) { State.reset with i := 0xEA0 } = .next t ∧ t.pc = 0x200 ∧ t.status = .fault := ⟨⟨_, rfl, by decide⟩, ⟨_, rfl, by decide⟩, _, rfl, by decide⟩

theorem witness_OnlyRndDraws :
    (∃ t, exec (.ldImm 0 5) State.reset = .next t) ∧ ∀ x nn, Instr.ldImm 0 5 ≠ .rnd x nn := ⟨⟨_, rfl⟩, by simp⟩

theorem witness_AddSetsCarry :
    (0 : Reg) ≠ VF ∧ (14 : Reg) ≠ VF := by decide

theorem witness_SubSetsNotBorrow :
    (0 : Reg) ≠ VF ∧ (14 : Reg) ≠ VF := by decide

theorem witness_ShrShiftsOutBit0 :
    (0 : Reg) ≠ VF ∧ (14 : Reg) ≠ VF := by decide

theorem witness_SubnSetsNotBorrow :
    (0 : Reg) ≠ VF ∧ (14 : Reg) ≠ VF := by decide

theorem witness_ShlShiftsOutBit7 :
    (0 : Reg) ≠ VF ∧ (14 : Reg) ≠ VF := by decide

theorem witness_AluIdentities :
    (0 : Reg) ≠ VF ∧ (14 : Reg) ≠ VF := by decide

theorem witness_UndefinedOnlyAdvances :
    0x8#4 ∈ [0x8#4, 0x9#4, 0xA#4, 0xB#4, 0xC#4, 0xD#4, 0xF#4] ∧ 0xF#4 ∈ [0x8#4, 0x9#4, 0xA#4, 0xB#4, 0xC#4, 0xD#4, 0xF#4] ∧
      0x9D#8 ∉ [0x9E#8, 0xA1#8] ∧ 0xA2#8 ∉ [0x9E#8, 0xA1#8] ∧
      0x08#8 ∉ [0x07#8, 0x0A#8, 0x15#8, 0x18#8, 0x1E#8, 0x29#8, 0x33#8, 0x55#8, 0x65#8] := by decide

theorem witness_OnlySixWriteVfAsFlag :
    ∃ t, exec (.addReg 1 2) (regs [(1, 0xFF), (2, 1)]) = .next t ∧ t.reg VF ≠ (regs [(1, 0xFF), (2, 1)]).reg VF := ⟨_, rfl, by decide⟩

/-- The last legal byte; and rows below the framebuffer, which are not read. -/
theorem witness_DrwXorsSprite :
    (∀ r : Nat, r < (1#4).toNat → (State.reset.reg 2).toNat + r ≤ 31 → ({ State.reset with i := 0xE9F } : State).dataAddr r ≤ 0xE9F) ∧
      ∀ r : Nat, r < (15#4).toNat → ((regs [(2, 31)]).reg 2).toNat + r ≤ 31 →
        ({ regs [(2, 31)] with i := 0xE9F } : State).dataAddr r ≤ 0xE9F := by decide

theorem witness_DrawTwiceRestores :
    let s := sprite 0x300 [0xFF] [(1, 60)]
    (1 : Reg) ≠ VF ∧ (2 : Reg) ≠ VF ∧ s.status = .run ∧
      (∃ t u, exec (.drw 1 2 1) s = .next t ∧ t.status = .run ∧ exec (.drw 1 2 1) t = .next u) ∧
      ∀ r : Fin 32, s.fb.get r = 0 := ⟨by decide, by decide, rfl, ⟨_, _, rfl, rfl, rfl⟩, by decide⟩

theorem witness_OnlyClsAndDrwWriteFramebuffer :
    ∃ t, exec (.drw 1 2 1) (sprite 0x300 [0xFF] []) = .next t ∧ t.fb ≠ State.reset.fb := ⟨_, rfl, by decide⟩

theorem witness_OnlyTwoWriteIndex :
    ∃ t, exec (.ldI 0xFFF) State.reset = .next t ∧ t.i ≠ State.reset.i := ⟨_, rfl, by decide⟩

/-- X = 0 anywhere, and transfers whose last byte is 0xE9F. -/
theorem witness_BlockStoreWritesBelowX :
    ((0 : Reg).val = 0 ∨ (withI 0xFFFF).i.toNat + (0 : Reg).val ≤ 0xEA0) ∧
      ((15 : Reg).val = 0 ∨ (withI 0xE91).i.toNat + (15 : Reg).val ≤ 0xEA0) ∧
      ((1 : Reg).val = 0 ∨ (withI 0xE9F).i.toNat + (1 : Reg).val ≤ 0xEA0) := by decide

/-- X = 0 anywhere, and transfers whose last byte is 0xE9F. -/
theorem witness_BlockLoadReadsBelowX :
    ((0 : Reg).val = 0 ∨ (withI 0xFFFF).i.toNat + (0 : Reg).val ≤ 0xEA0) ∧
      ((15 : Reg).val = 0 ∨ (withI 0xE91).i.toNat + (15 : Reg).val ≤ 0xEA0) ∧
      ((1 : Reg).val = 0 ∨ (withI 0xE9F).i.toNat + (1 : Reg).val ≤ 0xEA0) := by decide

/-- RESERVED from 0xEA0 (I at 0xE9F), RESERVED at I = 0xFFF, RANGE at I = 0xFFFF; each of the three instructions. -/
theorem witness_DataOutsideWindowFaults :
    (0 < 2 ∧ 0xEA0 < (withI 0xE9F).i.toNat + 2) ∧ (0 < 1 ∧ 0xEA0 < (withI 0xFFF).i.toNat + 1) ∧
      (0 < 15 ∧ 0xEA0 < (withI 0xFFFF).i.toNat + 15) ∧
      (∃ x : Reg, Instr.storeRegs 2 = .storeRegs x ∧ 2 = x.val) ∧ (∃ x : Reg, Instr.loadRegs 15 = .loadRegs x ∧ 15 = x.val) ∧
      ∃ (x y : Reg) (n : Nibble), Instr.drw 1 2 2 = .drw x y n ∧
        1 = (if ((regs [(2, 31)]).reg y).toNat > 31 then 0 else min n.toNat (32 - ((regs [(2, 31)]).reg y).toNat)) := ⟨by decide, by decide, by decide, ⟨2, rfl, rfl⟩, ⟨15, rfl, rfl⟩, 1, 2, 2, rfl, by decide⟩

/-- With u the stored state and V0 overwritten. -/
theorem witness_StoreThenLoadRestores :
    let s : State := { regs [(0, 7), (1, 9)] with i := 0xE9E }
    s.status = .run ∧ ∃ t w, exec (.storeRegs 2) s = .next t ∧ t.status = .run ∧ t.i = s.i ∧
      exec (.loadRegs 2) (t.setReg 0 0x55) = .next w ∧ (0 : Reg).val < (2 : Reg).val := ⟨rfl, _, _, rfl, rfl, rfl, rfl, by decide⟩

/-- V46-9 with both bytes stored. -/
theorem witness_StoreIntoCodeIsFetched :
    let s : State := { regs [(0, 0x12), (1, 0x00)] with i := 0x202 }
    (1 : Reg).val = (0 : Reg).val + 1 ∧ (1 : Reg).val < (2 : Reg).val ∧ s.dataAddr (0 : Reg).val = s.pc.toNat + 2 ∧ s.status = .run ∧
      ∃ t, exec (.storeRegs 2) s = .next t ∧ t.status = .run := ⟨rfl, by decide, by decide, rfl, _, rfl, rfl⟩

theorem witness_NoProgressIsPcUnchanged :
    (∃ t, exec (.jp 0x200) State.reset = .next t ∧ t.outputs = some ⟨.none, true⟩) ∧
      ∃ t, exec (.ldImm 0 5) State.reset = .next t ∧ t.outputs = some ⟨.none, false⟩ := ⟨⟨_, rfl, by decide⟩, _, rfl, by decide⟩

theorem witness_DiagnosticsAreExact :
    (∃ t, exec (.undef8 0 0 8) State.reset = .next t ∧ t.outputs = some ⟨.undefinedInstruction, false⟩) ∧
      ∃ t, exec .ret State.reset = .next t ∧ t.outputs = some ⟨.stackUnderflow, true⟩ := ⟨⟨_, rfl, by decide⟩, _, rfl, by decide⟩

end Sys2Proof.Tests
end

/-! Proofs of the memory family (`20_memory.md`): reads and writes of one byte. -/

namespace Sys2Proof.Proofs

open Sys2Proof.Machine

/-- Settles O18: `Memory.read_nil` is the byte never written, `Memory.read_write` the read after a write (rule R33). -/
theorem readReturnsLastWrite : Obligations.ReadReturnsLastWrite :=
  ⟨Memory.read_nil, fun m a k b => Memory.read_write m a b k⟩

end Sys2Proof.Proofs

/-! Frames of a completed step: how a frame of the writes before PC's becomes the frame of the instruction. -/

namespace Sys2Proof.Proofs

open Sys2Proof.Machine

theorem onlyChanges_mono {ps qs : List Part} {s t : State} (h : OnlyChanges ps s t) (hsub : ps ⊆ qs) :
    OnlyChanges qs s t :=
  fun p hp => h p fun hps => hp (hsub hps)

/-- Completing a step adds only PC and the outputs to what changed before. -/
theorem onlyChanges_complete_of {parts : List Part} {s u : State} (h : OnlyChanges parts s u) (target : Word)
    (d : Diag) : OnlyChanges (.pc :: .outputs :: parts) s (complete target d u) := by
  intro p hp
  simp only [List.mem_cons, not_or] at hp
  obtain ⟨hpc, hout, hparts⟩ := hp
  have hsame := h p hparts
  cases p with
  | pc => exact absurd rfl hpc
  | outputs => exact absurd rfl hout
  | regs | index | callStack | framebuffer | memory | faultRegs | draws => exact hsame

/-- Completing with PC where it was changes the outputs alone (rule R71, the empty stack). -/
theorem onlyChanges_complete_pc (d : Diag) (s : State) : OnlyChanges [.outputs] s (complete s.pc d s) := by
  intro p hp
  cases p with
  | pc => exact complete_pc s s.pc d
  | outputs => simp at hp
  | regs | index | callStack | framebuffer | memory | faultRegs | draws =>
    exact onlyChanges_complete s.pc d s _ (by simp)

theorem onlyChanges_push (s : State) (a : Word) : OnlyChanges [.callStack] s (s.push a) :=
  onlyChanges_of fun p => by cases p <;> simp [Same]

theorem onlyChanges_pop (s : State) : OnlyChanges [.callStack] s s.pop :=
  onlyChanges_of fun p => by cases p <;> simp [Same]

/-- An instruction that is no more than the advance has the frame of `AdvancesOnly`. -/
theorem advancesOnly_of_exec {i : Instr} {d : Diag} {s : State}
    (h : exec i s = .next (complete (s.pc + 2) d s)) : AdvancesOnly i d s :=
  ⟨_, h, endsAt_complete rfl _ _, onlyChanges_complete _ _ _⟩

end Sys2Proof.Proofs

/-! Proofs of the control transfer family (`40_control_flow.md`): what its words decode to, one equation per case of
each meaning, and the statements. -/

namespace Sys2Proof.Proofs

open Sys2Proof.Machine

/-! ### The words -/

theorem decodeWord_jp (nnn : Addr12) : decodeWord (wordNNN 0x1 nnn) = .jp nnn := by
  simp [decodeWord]

theorem decodeWord_call (nnn : Addr12) : decodeWord (wordNNN 0x2 nnn) = .call nnn := by
  simp [decodeWord]

/-- Family 0 is told apart by its low 12 bits, which are the field NNN (rule R56). -/
theorem decodeWord_sys {nnn : Addr12} (hcls : nnn ≠ 0x0E0) (hret : nnn ≠ 0x0EE) :
    decodeWord (wordNNN 0x0 nnn) = .sys nnn := by
  have hne : ∀ {k : Addr12}, nnn ≠ k → wordNNN 0x0 nnn ≠ wordNNN 0x0 k := fun hk h =>
    hk (by simpa using congrArg fieldNNN h)
  have hcls' : wordNNN 0x0 nnn ≠ 0x00E0 := hne hcls
  have hret' : wordNNN 0x0 nnn ≠ 0x00EE := hne hret
  have hfam : decodeWord (wordNNN 0x0 nnn) = decodeFamily0 (wordNNN 0x0 nnn) := by simp [decodeWord]
  rw [hfam, decodeFamily0, if_neg hcls', if_neg hret', fieldNNN_wordNNN]

/-! ### The meanings, case by case -/

theorem zextAddr_eq_ofNat (nnn : Addr12) : zextAddr nnn = BitVec.ofNat 16 nnn.toNat :=
  (BitVec.ofNat_toNat 16 nnn).symm

theorem exec_sys (nnn : Addr12) (s : State) : exec (.sys nnn) s = .next (complete (s.pc + 2) .none s) := rfl

theorem exec_jp (nnn : Addr12) (s : State) :
    exec (.jp nnn) s = .next (complete (BitVec.ofNat 16 nnn.toNat) .none s) := by
  rw [← zextAddr_eq_ofNat]
  rfl

theorem exec_ret_of_empty {s : State} (h : s.sp = 0) : exec .ret s = .next (complete s.pc .stackUnderflow s) :=
  if_pos h

theorem exec_ret_of_top {s : State} {a : Word} (hsp : s.sp ≠ 0) (htop : s.top = some a) :
    exec .ret s = .next (complete a .none s.pop) := by
  simp only [exec, execRet, if_neg hsp, htop]

theorem exec_call_of_lt {s : State} (nnn : Addr12) (h : s.sp.toNat < Config.stackDepth) :
    exec (.call nnn) s = .next (complete (BitVec.ofNat 16 nnn.toNat) .none (s.push (s.pc + 2))) := by
  rw [← zextAddr_eq_ofNat]
  exact if_pos h

theorem exec_call_of_full {s : State} (nnn : Addr12) (h : ¬ s.sp.toNat < Config.stackDepth) :
    exec (.call nnn) s = .next (complete (s.pc + 2) .none s) :=
  if_neg h

/-- At depth k + 1 the top of the stack is entry k (rule R14). -/
theorem top_eq_get {s : State} {k : Fin 12} (h : s.sp.toNat = k.val + 1) : s.top = some (s.stack.get k) := by
  have hk : s.sp.toNat - 1 = k.val := by omega
  simp only [top_eq (hk ▸ k.isLt), hk]

/-! ### The statements -/

/-- Settles O20: `SYS nnn` is the advance alone (rule R70). -/
theorem sysOnlyAdvances : Obligations.SysOnlyAdvances :=
  fun nnn s => ⟨decodeWord_sys, advancesOnly_of_exec (exec_sys nnn s)⟩

/-- Settles O21: on an empty stack the step completes at PC itself, at depth k + 1 it completes at entry k after the
pop (rule R71). -/
theorem retPopsIntoPc : Obligations.RetPopsIntoPc := by
  refine ⟨rfl, fun s => ⟨fun hempty => ?_, fun k hdepth => ?_⟩⟩
  · exact ⟨_, exec_ret_of_empty hempty, endsAt_complete rfl _ _, onlyChanges_complete_pc _ s⟩
  · have hsp : s.sp ≠ 0 := by
      intro h
      simp [h] at hdepth
    have hpop : s.pop.sp.toNat = k.val := by rw [pop_sp_toNat hsp, hdepth, Nat.add_sub_cancel]
    exact ⟨_, exec_ret_of_top hsp (top_eq_get hdepth), endsAt_complete (pop_pc s) _ _, hpop, pop_stack s,
      onlyChanges_mono (onlyChanges_complete_of (onlyChanges_pop s) _ _) (by simp)⟩

/-- Settles O23: `JP nnn` completes at NNN with nothing written before (rule R72). -/
theorem jpReplacesPc : Obligations.JpReplacesPc :=
  fun nnn s => ⟨decodeWord_jp nnn, _, exec_jp nnn s, endsAt_complete rfl _ _, onlyChanges_complete _ _ _⟩

/-- Settles O24: below depth 12 the step completes at NNN after the push, at depth 12 it is the advance alone (rules
R73, R163). -/
theorem callPushesOrIsDropped : Obligations.CallPushesOrIsDropped := by
  refine fun nnn s => ⟨decodeWord_call nnn, fun k hdepth => ?_, fun hfull => ?_⟩
  · have hlt : s.sp.toNat < Config.stackDepth := hdepth ▸ k.isLt
    have hsp : (s.push (s.pc + 2)).sp.toNat = k.val + 1 := by rw [push_sp_toNat _ hlt, hdepth]
    have hnew : (s.push (s.pc + 2)).stack.get k = s.pc + 2 := by rw [get_push, if_pos hdepth.symm]
    have hold : ∀ j : Fin 12, j ≠ k → (s.push (s.pc + 2)).stack.get j = s.stack.get j := by
      intro j hj
      rw [get_push, if_neg fun h => hj (Fin.ext (h.trans hdepth))]
    exact ⟨_, exec_call_of_lt nnn hlt, endsAt_complete (push_pc s _) _ _, hsp, hnew, hold,
      onlyChanges_mono (onlyChanges_complete_of (onlyChanges_push s _) _ _) (by simp)⟩
  · have hge : ¬ s.sp.toNat < Config.stackDepth := by simp [hfull, Config.stackDepth]
    exact advancesOnly_of_exec (exec_call_of_full nnn hge)

end Sys2Proof.Proofs

/-! Proofs of the skip family (`41_skips.md`): what its words decode to, a skip as a completed step whose target the
condition chooses, and the statements. -/

namespace Sys2Proof.Proofs

open Sys2Proof.Machine

/-! ### The words -/

theorem decodeWord_seImm (x : Reg) (nn : Byte) : decodeWord (wordXNN 0x3 x nn) = .seImm x nn := by
  simp [decodeWord]

theorem decodeWord_sneImm (x : Reg) (nn : Byte) : decodeWord (wordXNN 0x4 x nn) = .sneImm x nn := by
  simp [decodeWord]

/-! ### A skip on a comparison of two bytes -/

theorem skipIf_beq (a b : Byte) (s : State) :
    skipIf (a == b) s = complete (if a = b then s.pc + 4 else s.pc + 2) .none s := by
  simp only [skipIf_eq, beq_iff_eq]

/-- Skipping on inequality is skipping on equality with the two targets exchanged. -/
theorem skipIf_bne (a b : Byte) (s : State) :
    skipIf (a != b) s = complete (if a = b then s.pc + 2 else s.pc + 4) .none s := by
  simp only [skipIf_eq, bne_iff_ne, ne_eq, ite_not]

/-! ### The meanings -/

theorem exec_seImm (x : Reg) (nn : Byte) (s : State) :
    exec (.seImm x nn) s = .next (complete (if s.reg x = nn then s.pc + 4 else s.pc + 2) .none s) :=
  congrArg _ (skipIf_beq (s.reg x) nn s)

theorem exec_sneImm (x : Reg) (nn : Byte) (s : State) :
    exec (.sneImm x nn) s = .next (complete (if s.reg x = nn then s.pc + 2 else s.pc + 4) .none s) :=
  congrArg _ (skipIf_bne (s.reg x) nn s)

/-! ### The statements -/

/-- Settles O29: both skips complete at the target their comparison chooses, with nothing written before (rules R80,
R81). -/
theorem immediateSkips : Obligations.ImmediateSkips := by
  refine fun x nn s => ⟨decodeWord_seImm x nn, decodeWord_sneImm x nn, ?_, ?_⟩
  · exact ⟨_, exec_seImm x nn s, endsAt_complete rfl _ _, onlyChanges_complete _ _ _⟩
  · exact ⟨_, exec_sneImm x nn s, endsAt_complete rfl _ _, onlyChanges_complete _ _ _⟩

end Sys2Proof.Proofs

/-! Proofs of the immediate and index family (`42_immediate_index_random.md`): what its words decode to, a completed
register write, a write of I, and the statements. -/

namespace Sys2Proof.Proofs

open Sys2Proof.Machine

/-! ### The words -/

theorem decodeWord_ldImm (x : Reg) (nn : Byte) : decodeWord (wordXNN 0x6 x nn) = .ldImm x nn := by
  simp [decodeWord]

theorem decodeWord_addImm (x : Reg) (nn : Byte) : decodeWord (wordXNN 0x7 x nn) = .addImm x nn := by
  simp [decodeWord]

theorem decodeWord_ldI (nnn : Addr12) : decodeWord (wordNNN 0xA nnn) = .ldI nnn := by
  simp [decodeWord]

/-! ### Frames of the two writes -/

theorem onlyChanges_setReg (s : State) (x : Reg) (b : Byte) : OnlyChanges [.regs] s (s.setReg x b) :=
  onlyChanges_of fun p => by cases p <;> simp [Same]

theorem onlyChanges_with_i (s : State) (w : Word) : OnlyChanges [.index] s { s with i := w } :=
  onlyChanges_of fun p => by cases p <;> simp [Same]

/-- An instruction that is one register write and the advance has the frame of `WritesReg`. -/
theorem writesReg_of_exec {i : Instr} {x : Reg} {b : Byte} {s : State}
    (h : exec i s = .next (complete (s.pc + 2) .none (s.setReg x b))) : WritesReg i x b s :=
  ⟨_, h, fun r => reg_setReg s x r b, endsAt_complete (setReg_pc s x b) _ _,
    onlyChanges_mono (onlyChanges_complete_of (onlyChanges_setReg s x b) _ _) (by simp)⟩

/-! ### The meanings -/

theorem exec_ldImm (x : Reg) (nn : Byte) (s : State) :
    exec (.ldImm x nn) s = .next (complete (s.pc + 2) .none (s.setReg x nn)) := rfl

theorem exec_addImm (x : Reg) (nn : Byte) (s : State) :
    exec (.addImm x nn) s = .next (complete (s.pc + 2) .none (s.setReg x (s.reg x + nn))) := rfl

theorem exec_ldI (nnn : Addr12) (s : State) :
    exec (.ldI nnn) s = .next (complete (s.pc + 2) .none { s with i := zextAddr nnn }) := rfl

/-- The sum of two bytes is their sum as numbers modulo 256 (rule R91). -/
theorem byte_add_eq_ofNat (a b : Byte) : a + b = BitVec.ofNat 8 ((a.toNat + b.toNat) % 256) :=
  BitVec.eq_of_toNat_eq (by simp)

/-! ### The statements -/

/-- Settles O31: `LD Vx, nn` is one write of NN to VX and the advance (rule R90). -/
theorem ldImmediate : Obligations.LdImmediate :=
  fun x nn s => ⟨decodeWord_ldImm x nn, writesReg_of_exec (exec_ldImm x nn s)⟩

/-- Settles O32: `ADD Vx, nn` is one write of the wrapped sum to VX and the advance (rule R91). -/
theorem addImmediateWraps : Obligations.AddImmediateWraps := by
  refine fun x nn s => ⟨decodeWord_addImm x nn, ?_⟩
  rw [← byte_add_eq_ofNat]
  exact writesReg_of_exec (exec_addImm x nn s)

/-- Settles O33: `LD I, nnn` is one write of the zero-extended NNN to I and the advance (rule R92). -/
theorem ldIndex : Obligations.LdIndex :=
  fun nnn s => ⟨decodeWord_ldI nnn, _, exec_ldI nnn s, zextAddr_toNat nnn, endsAt_complete rfl _ _,
    onlyChanges_mono (onlyChanges_complete_of (onlyChanges_with_i s _) _ _) (by simp)⟩

end Sys2Proof.Proofs

/-! Proofs of the ALU family (`43_alu.md`): what the words of family 8 decode to, the words that fall through to the
undefined rows of families 8, E and F, one equation per meaning, and the statements. -/

namespace Sys2Proof.Proofs

open Sys2Proof.Machine

/-! ### The words of the families 8, E and F -/

theorem decodeWord_family8 (x y : Reg) (n : Nibble) : decodeWord (wordXYN 0x8 x y n) = decodeFamily8 x y n := by
  simp [decodeWord]

theorem decodeWord_familyE (x : Reg) (nn : Byte) : decodeWord (wordXNN 0xE x nn) = decodeFamilyE x nn := by
  simp [decodeWord]

theorem decodeWord_familyF (x : Reg) (nn : Byte) : decodeWord (wordXNN 0xF x nn) = decodeFamilyF x nn := by
  simp [decodeWord]

theorem decodeWord_ldReg (x y : Reg) : decodeWord (wordXYN 0x8 x y 0x0) = .ldReg x y := decodeWord_family8 x y 0x0

theorem decodeWord_orReg (x y : Reg) : decodeWord (wordXYN 0x8 x y 0x1) = .orReg x y := decodeWord_family8 x y 0x1

theorem decodeWord_andReg (x y : Reg) : decodeWord (wordXYN 0x8 x y 0x2) = .andReg x y := decodeWord_family8 x y 0x2

theorem decodeWord_xorReg (x y : Reg) : decodeWord (wordXYN 0x8 x y 0x3) = .xorReg x y := decodeWord_family8 x y 0x3

/-! ### Away from a family's listed values its decoder answers the undefined row (rule R59) -/

theorem decodeFamily8_of_notMem (x y : Reg) {n : Nibble} (h : n ∉ family8Defined) :
    decodeFamily8 x y n = .undef8 x y n := by
  unfold decodeFamily8
  split
  case h_10 => rfl
  all_goals exact absurd (by decide) h

theorem decodeFamilyE_of_notMem (x : Reg) {nn : Byte} (h : nn ∉ familyERecognised) :
    decodeFamilyE x nn = .undefE x nn := by
  unfold decodeFamilyE
  split
  case h_3 => rfl
  all_goals exact absurd (by decide) h

theorem decodeFamilyF_of_notMem (x : Reg) {nn : Byte} (h : nn ∉ familyFRecognised) :
    decodeFamilyF x nn = .undefF x nn := by
  unfold decodeFamilyF
  split
  case h_10 => rfl
  all_goals exact absurd (by decide) h

/-- The seven undefined values of N are none of the nine defined ones (rules R56, R59). -/
theorem notMem_family8Defined : ∀ n ∈ [0x8#4, 0x9#4, 0xA#4, 0xB#4, 0xC#4, 0xD#4, 0xF#4], n ∉ family8Defined := by
  decide

/-! ### The meanings -/

theorem exec_ldReg (x y : Reg) (s : State) :
    exec (.ldReg x y) s = .next (complete (s.pc + 2) .none (s.setReg x (s.reg y))) := rfl

theorem exec_orReg (x y : Reg) (s : State) :
    exec (.orReg x y) s = .next (complete (s.pc + 2) .none (s.setReg x (s.reg x ||| s.reg y))) := rfl

theorem exec_andReg (x y : Reg) (s : State) :
    exec (.andReg x y) s = .next (complete (s.pc + 2) .none (s.setReg x (s.reg x &&& s.reg y))) := rfl

theorem exec_xorReg (x y : Reg) (s : State) :
    exec (.xorReg x y) s = .next (complete (s.pc + 2) .none (s.setReg x (s.reg x ^^^ s.reg y))) := rfl

theorem exec_undef8 (x y : Reg) (n : Nibble) (s : State) :
    exec (.undef8 x y n) s = .next (complete (s.pc + 2) .undefinedInstruction s) := rfl

theorem exec_undefE (x : Reg) (nn : Byte) (s : State) :
    exec (.undefE x nn) s = .next (complete (s.pc + 2) .undefinedInstruction s) := rfl

theorem exec_undefF (x : Reg) (nn : Byte) (s : State) :
    exec (.undefF x nn) s = .next (complete (s.pc + 2) .undefinedInstruction s) := rfl

/-! ### The statements -/

/-- Settles O36: each of the four is one write to VX and the advance, so the frame of `WritesReg` keeps VF (rules R101
to R104). -/
theorem aluCopyAndLogic : Obligations.AluCopyAndLogic :=
  fun x y s => ⟨decodeWord_ldReg x y, decodeWord_orReg x y, decodeWord_andReg x y, decodeWord_xorReg x y,
    writesReg_of_exec (exec_ldReg x y s), writesReg_of_exec (exec_orReg x y s),
    writesReg_of_exec (exec_andReg x y s), writesReg_of_exec (exec_xorReg x y s)⟩

/-- Settles O44: a value that is on none of its family's lists decodes to the undefined row, whose meaning is the
advance with the diagnostic (rules R110, R132, R139). -/
theorem undefinedOnlyAdvances : Obligations.UndefinedOnlyAdvances := by
  refine fun x y n nn s => ⟨fun h8 => ?_, fun hE => ?_, fun hF => ?_, advancesOnly_of_exec (exec_undef8 x y n s),
    advancesOnly_of_exec (exec_undefE x nn s), advancesOnly_of_exec (exec_undefF x nn s)⟩
  · rw [decodeWord_family8, decodeFamily8_of_notMem x y (notMem_family8Defined n h8)]
  · rw [decodeWord_familyE, decodeFamilyE_of_notMem x hE]
  · rw [decodeWord_familyF, decodeFamilyF_of_notMem x hF]

end Sys2Proof.Proofs

/-! Proofs of the display family (`44_display.md`): the word of CLS, the frame of a framebuffer write, the meaning of
CLS as one such write and the advance, and the statement. -/

namespace Sys2Proof.Proofs

open Sys2Proof.Machine

theorem decodeWord_cls : decodeWord 0x00E0 = .cls := rfl

theorem onlyChanges_with_fb (s : State) (fb : Vector PixelRow 32) :
    OnlyChanges [.framebuffer] s { s with fb := fb } :=
  onlyChanges_of fun p => by cases p <;> simp [Same]

theorem exec_cls (s : State) :
    exec .cls s = .next (complete (s.pc + 2) .none { s with fb := Vector.replicate 32 0 }) := rfl

/-- Settles O46: `CLS` is one write of 32 zero rows to the framebuffer and the advance, so its frame keeps VF with the
other registers (rule R122). -/
theorem clsClearsFramebuffer : Obligations.ClsClearsFramebuffer :=
  ⟨decodeWord_cls, fun s => ⟨_, exec_cls s, Vector.get_replicate 32 0, endsAt_complete rfl _ _,
    onlyChanges_mono (onlyChanges_complete_of (onlyChanges_with_fb s _) _ _) (by simp)⟩⟩

end Sys2Proof.Proofs

/-! Proofs of the keypad, timer, font and BCD family (`45_key_timer_unimplemented.md`): the eight recognised values of
families E and F, the meaning of each as the advance alone, and the statement. -/

namespace Sys2Proof.Proofs

open Sys2Proof.Machine

/-! ### The words -/

theorem decodeWord_skp (x : Reg) : decodeWord (wordXNN 0xE x 0x9E) = .skp x := decodeWord_familyE x 0x9E

theorem decodeWord_sknp (x : Reg) : decodeWord (wordXNN 0xE x 0xA1) = .sknp x := decodeWord_familyE x 0xA1

theorem decodeWord_ldVxDT (x : Reg) : decodeWord (wordXNN 0xF x 0x07) = .ldVxDT x := decodeWord_familyF x 0x07

theorem decodeWord_ldVxK (x : Reg) : decodeWord (wordXNN 0xF x 0x0A) = .ldVxK x := decodeWord_familyF x 0x0A

theorem decodeWord_ldDTVx (x : Reg) : decodeWord (wordXNN 0xF x 0x15) = .ldDTVx x := decodeWord_familyF x 0x15

theorem decodeWord_ldSTVx (x : Reg) : decodeWord (wordXNN 0xF x 0x18) = .ldSTVx x := decodeWord_familyF x 0x18

theorem decodeWord_ldFVx (x : Reg) : decodeWord (wordXNN 0xF x 0x29) = .ldFVx x := decodeWord_familyF x 0x29

theorem decodeWord_ldBVx (x : Reg) : decodeWord (wordXNN 0xF x 0x33) = .ldBVx x := decodeWord_familyF x 0x33

/-! ### The meanings: each is the advance alone, so X, I and memory are neither read nor written -/

theorem exec_skp (x : Reg) (s : State) : exec (.skp x) s = .next (complete (s.pc + 2) .none s) := rfl

theorem exec_sknp (x : Reg) (s : State) : exec (.sknp x) s = .next (complete (s.pc + 2) .none s) := rfl

theorem exec_ldVxDT (x : Reg) (s : State) : exec (.ldVxDT x) s = .next (complete (s.pc + 2) .none s) := rfl

theorem exec_ldVxK (x : Reg) (s : State) : exec (.ldVxK x) s = .next (complete (s.pc + 2) .none s) := rfl

theorem exec_ldDTVx (x : Reg) (s : State) : exec (.ldDTVx x) s = .next (complete (s.pc + 2) .none s) := rfl

theorem exec_ldSTVx (x : Reg) (s : State) : exec (.ldSTVx x) s = .next (complete (s.pc + 2) .none s) := rfl

theorem exec_ldFVx (x : Reg) (s : State) : exec (.ldFVx x) s = .next (complete (s.pc + 2) .none s) := rfl

theorem exec_ldBVx (x : Reg) (s : State) : exec (.ldBVx x) s = .next (complete (s.pc + 2) .none s) := rfl

/-! ### The statement -/

/-- Settles O51: each of the eight words decodes to its own row, and each meaning is the advance in every state, so no
fault is possible at any I (rules R130, R131, R133 to R138). -/
theorem unimplementedOnlyAdvance : Obligations.UnimplementedOnlyAdvance :=
  fun x s => ⟨⟨decodeWord_skp x, advancesOnly_of_exec (exec_skp x s)⟩,
    ⟨decodeWord_sknp x, advancesOnly_of_exec (exec_sknp x s)⟩,
    ⟨decodeWord_ldVxDT x, advancesOnly_of_exec (exec_ldVxDT x s)⟩,
    ⟨decodeWord_ldVxK x, advancesOnly_of_exec (exec_ldVxK x s)⟩,
    ⟨decodeWord_ldDTVx x, advancesOnly_of_exec (exec_ldDTVx x s)⟩,
    ⟨decodeWord_ldSTVx x, advancesOnly_of_exec (exec_ldSTVx x s)⟩,
    ⟨decodeWord_ldFVx x, advancesOnly_of_exec (exec_ldFVx x s)⟩,
    ⟨decodeWord_ldBVx x, advancesOnly_of_exec (exec_ldBVx x s)⟩⟩

end Sys2Proof.Proofs

/-! Proof of the exceptions family (`60_exceptions.md`), `no_progress`: what a completed step's outputs say about PC,
the advance of every instruction that is no control transfer, and the statement. -/

namespace Sys2Proof.Proofs

open Sys2Proof.Machine

/-- The four control transfers that name PC's next value themselves (rules R71 to R74). -/
def Transfers (i : Instr) : Prop :=
  (∃ nnn, i = .jp nnn) ∨ (∃ nnn, i = .jpV0 nnn) ∨ (∃ nnn, i = .call nnn) ∨ i = .ret

/-- PC moved on by one word or, after a taken skip, by two (rule R54). -/
def PcAdvanced (s t : State) : Prop := t.pc = s.pc + 2 ∨ t.pc = s.pc + 4

/-! ### The two ends of an instruction -/

/-- A fault produces no outputs (rule R167), so an instruction with outputs completed. -/
theorem completed_of_outputs {i : Instr} {s t : State} {o : StepOutputs} (h : exec i s = .next t)
    (ho : t.outputs = some o) : Completed s t := by
  rcases exec_cases h with ⟨n, c, a, hc, rfl⟩ | hcompleted
  · simp at ho
  · exact hcompleted

/-- Completing compares the new PC with the one the instruction started from (rule R165). -/
theorem noProgress_iff_of_completed {s t : State} {o : StepOutputs} (h : Completed s t) (ho : t.outputs = some o) :
    o.noProgress = true ↔ t.pc = s.pc := by
  obtain ⟨u, target, d, rfl, hpc, -⟩ := h
  obtain rfl : (⟨d, target == u.pc⟩ : StepOutputs) = o := by simpa using ho
  simp [hpc]

/-! ### An instruction that is no transfer moves PC -/

/-- An advance is never back to the same address: 2 and 4 are not 0 modulo 65536. -/
theorem pc_ne_of_advanced {s t : State} (h : PcAdvanced s t) : t.pc ≠ s.pc := by
  rcases h with h | h <;> rw [h] <;> simp

theorem pcAdvanced_advance {s u : State} (h : u.pc = s.pc) : PcAdvanced s (advance u) :=
  .inl (by simp [h])

theorem pcAdvanced_skipIf (c : Bool) (s : State) : PcAdvanced s (skipIf c s) := by
  cases c <;> simp [PcAdvanced]

/-- An access that produced outputs took no fault, so it advanced. -/
theorem pcAdvanced_accessing {k : Access} {l : List Nat} {s u t : State} {o : StepOutputs}
    (h : accessing k l s (advance u) = .next t) (ho : t.outputs = some o) (hpc : u.pc = s.pc) : PcAdvanced s t := by
  rcases accessing_cases h with ⟨c, a, -, rfl⟩ | ⟨-, rfl⟩
  · simp at ho
  · exact pcAdvanced_advance hpc

/-- Every completed instruction is one of the four transfers or moves PC on. -/
theorem transfers_or_pcAdvanced {i : Instr} {s t : State} {o : StepOutputs} (h : exec i s = .next t)
    (ho : t.outputs = some o) : Transfers i ∨ PcAdvanced s t := by
  cases i with
  | jp nnn => exact .inl (.inl ⟨nnn, rfl⟩)
  | jpV0 nnn => exact .inl (.inr (.inl ⟨nnn, rfl⟩))
  | call nnn => exact .inl (.inr (.inr (.inl ⟨nnn, rfl⟩)))
  | ret => exact .inl (.inr (.inr (.inr rfl)))
  | drw | storeRegs | loadRegs => exact .inr (pcAdvanced_accessing h ho rfl)
  | seImm | sneImm | seReg | sneReg => cases h; exact .inr (pcAdvanced_skipIf _ s)
  | cls | sys | ldImm | addImm | ldReg | orReg | andReg | xorReg | addReg | subReg | shr | subnReg | shl | undef8 | ldI
  | rnd | skp | sknp | undefE | ldVxDT | ldVxK | ldDTVx | ldSTVx | addI | ldFVx | ldBVx | undefF =>
    cases h; exact .inr (.inl rfl)

/-! ### The statement -/

/-- Settles O59: an instruction with outputs completed, so `no_progress` is PC unchanged, and only the transfers can
leave PC unchanged, for every other instruction advances (rule R165). -/
theorem noProgressIsPcUnchanged : Obligations.NoProgressIsPcUnchanged := by
  intro i s t o h ho
  have hiff := noProgress_iff_of_completed (completed_of_outputs h ho) ho
  refine ⟨hiff, fun hnp => ?_⟩
  rcases transfers_or_pcAdvanced h ho with htransfer | hadvanced
  · exact htransfer
  · exact absurd (hiff.mp hnp) (pc_ne_of_advanced hadvanced)

end Sys2Proof.Proofs

/-! Proof of the reset and hazards family (`70_reset_and_hazards.md`), the image load: what a byte reads after it, inside
the image and outside, its frame, and the statement. -/

namespace Sys2Proof.Proofs

open Sys2Proof.Machine

/-- A byte of the image that is not dropped is read at its place (rule R181). -/
theorem read_loadImage_of_lt (s : State) {img : List Byte} {k : Nat} (h : k < img.length) (hk : k < 3232) :
    (s.loadImage img).mem.read (0x200 + k) = img[k] := by
  have hin : 0x200 ≤ 0x200 + k ∧ 0x200 + k - 0x200 < (img.take 3232).length := by
    rw [List.length_take]; omega
  rw [loadImage_mem, read_writeImage, dif_pos hin]
  simp

/-- A byte that is no image byte's place reads as before the load. -/
theorem read_loadImage_of_ne (s : State) {img : List Byte} {a : Nat}
    (ha : ∀ k : Nat, k < img.length → k < 3232 → a ≠ 0x200 + k) : (s.loadImage img).mem.read a = s.mem.read a := by
  have hout : ¬ (0x200 ≤ a ∧ a - 0x200 < (img.take 3232).length) := by
    rintro ⟨hle, hlt⟩
    rw [List.length_take] at hlt
    exact ha (a - 0x200) (by omega) (by omega) (by omega)
  rw [loadImage_mem, read_writeImage, dif_neg hout]

@[simp] theorem loadImage_reg (s : State) (img : List Byte) (r : Reg) : (s.loadImage img).reg r = s.reg r := rfl

theorem onlyChanges_loadImage (s : State) (img : List Byte) : OnlyChanges [.memory] s (s.loadImage img) :=
  onlyChanges_of fun p => by cases p <;> simp [Same]

/-- Settles O16: the load writes the image's first 3232 bytes from 0x200 up and no other field (rule R181). -/
theorem imageLoadsAt0x200 : Obligations.ImageLoadsAt0x200 :=
  fun s _ => ⟨fun _ h hk => read_loadImage_of_lt s h hk, fun _ ha => read_loadImage_of_ne s ha,
    onlyChanges_loadImage s _⟩

end Sys2Proof.Proofs

/-! Proofs of the encoding (`30_encoding.md`): what the remaining words decode to, decoding and encoding as inverses of
each other, the opcode map as a search on the fields of a word, and the statements. -/

namespace Sys2Proof.Proofs

open Sys2Proof.Machine

/-! ### The words of the remaining rows -/

theorem decodeWord_seReg (x y : Reg) (n : Nibble) : decodeWord (wordXYN 0x5 x y n) = .seReg x y n := by
  simp [decodeWord]

theorem decodeWord_sneReg (x y : Reg) (n : Nibble) : decodeWord (wordXYN 0x9 x y n) = .sneReg x y n := by
  simp [decodeWord]

theorem decodeWord_jpV0 (nnn : Addr12) : decodeWord (wordNNN 0xB nnn) = .jpV0 nnn := by
  simp [decodeWord]

theorem decodeWord_rnd (x : Reg) (nn : Byte) : decodeWord (wordXNN 0xC x nn) = .rnd x nn := by
  simp [decodeWord]

theorem decodeWord_drw (x y : Reg) (n : Nibble) : decodeWord (wordXYN 0xD x y n) = .drw x y n := by
  simp [decodeWord]

theorem decodeWord_addReg (x y : Reg) : decodeWord (wordXYN 0x8 x y 0x4) = .addReg x y := decodeWord_family8 x y 0x4

theorem decodeWord_subReg (x y : Reg) : decodeWord (wordXYN 0x8 x y 0x5) = .subReg x y := decodeWord_family8 x y 0x5

theorem decodeWord_shr (x y : Reg) : decodeWord (wordXYN 0x8 x y 0x6) = .shr x y := decodeWord_family8 x y 0x6

theorem decodeWord_subnReg (x y : Reg) : decodeWord (wordXYN 0x8 x y 0x7) = .subnReg x y := decodeWord_family8 x y 0x7

theorem decodeWord_shl (x y : Reg) : decodeWord (wordXYN 0x8 x y 0xE) = .shl x y := decodeWord_family8 x y 0xE

theorem decodeWord_addI (x : Reg) : decodeWord (wordXNN 0xF x 0x1E) = .addI x := decodeWord_familyF x 0x1E

theorem decodeWord_storeRegs (x : Reg) : decodeWord (wordXNN 0xF x 0x55) = .storeRegs x := decodeWord_familyF x 0x55

theorem decodeWord_loadRegs (x : Reg) : decodeWord (wordXNN 0xF x 0x65) = .loadRegs x := decodeWord_familyF x 0x65

/-! ### Decoding after encoding -/

theorem decodeWord_encodeWord {i : Instr} (h : i.wf = true) : decodeWord (encodeWord i) = i := by
  cases i with
  | cls => exact decodeWord_cls
  | ret => rfl
  | sys nnn =>
    have hne : nnn ≠ 0x0E0 ∧ nnn ≠ 0x0EE := by simpa [Instr.wf, sysExcluded] using h
    exact decodeWord_sys hne.1 hne.2
  | jp => exact decodeWord_jp _
  | call => exact decodeWord_call _
  | seImm => exact decodeWord_seImm _ _
  | sneImm => exact decodeWord_sneImm _ _
  | seReg => exact decodeWord_seReg _ _ _
  | ldImm => exact decodeWord_ldImm _ _
  | addImm => exact decodeWord_addImm _ _
  | ldReg => exact decodeWord_ldReg _ _
  | orReg => exact decodeWord_orReg _ _
  | andReg => exact decodeWord_andReg _ _
  | xorReg => exact decodeWord_xorReg _ _
  | addReg => exact decodeWord_addReg _ _
  | subReg => exact decodeWord_subReg _ _
  | shr => exact decodeWord_shr _ _
  | subnReg => exact decodeWord_subnReg _ _
  | shl => exact decodeWord_shl _ _
  | undef8 x y n =>
    have hn : n ∉ family8Defined := by simpa [Instr.wf] using h
    exact (decodeWord_family8 x y n).trans (decodeFamily8_of_notMem x y hn)
  | sneReg => exact decodeWord_sneReg _ _ _
  | ldI => exact decodeWord_ldI _
  | jpV0 => exact decodeWord_jpV0 _
  | rnd => exact decodeWord_rnd _ _
  | drw => exact decodeWord_drw _ _ _
  | skp => exact decodeWord_skp _
  | sknp => exact decodeWord_sknp _
  | undefE x nn =>
    have hnn : nn ∉ familyERecognised := by simpa [Instr.wf] using h
    exact (decodeWord_familyE x nn).trans (decodeFamilyE_of_notMem x hnn)
  | ldVxDT => exact decodeWord_ldVxDT _
  | ldVxK => exact decodeWord_ldVxK _
  | ldDTVx => exact decodeWord_ldDTVx _
  | ldSTVx => exact decodeWord_ldSTVx _
  | addI => exact decodeWord_addI _
  | ldFVx => exact decodeWord_ldFVx _
  | ldBVx => exact decodeWord_ldBVx _
  | storeRegs => exact decodeWord_storeRegs _
  | loadRegs => exact decodeWord_loadRegs _
  | undefF x nn =>
    have hnn : nn ∉ familyFRecognised := by simpa [Instr.wf] using h
    exact (decodeWord_familyF x nn).trans (decodeFamilyF_of_notMem x hnn)

/-- Settles O1: the bytes of an instruction are its word's, and the word decodes to the instruction (rules R51, R52,
R61). -/
theorem decodeOfEncode : Obligations.DecodeOfEncode := by
  intro i h
  rw [encode, decode_two, wordOfBytes_high_low, decodeWord_encodeWord h]

/-! ### Encoding after decoding -/

/-- A well-formed instruction whose encoding is the word. -/
def IsInstrOf (i : Instr) (w : Word) : Prop := i.wf = true ∧ encodeWord i = w

theorem isInstrOf_decodeFamily0 {w : Word} (h : fieldOp w = 0x0) : IsInstrOf (decodeFamily0 w) w := by
  have hw : wordNNN 0x0 (fieldNNN w) = w := h ▸ wordNNN_fields w
  unfold decodeFamily0
  split
  · next hcls => exact ⟨rfl, hcls.symm⟩
  · next hcls =>
    split
    · next hret => exact ⟨rfl, hret.symm⟩
    · next hret =>
      have hne : fieldNNN w ≠ 0x0E0 ∧ fieldNNN w ≠ 0x0EE :=
        ⟨fun h0 => hcls (by rw [← hw, h0]; rfl), fun h0 => hret (by rw [← hw, h0]; rfl)⟩
      exact ⟨by simpa [Instr.wf, sysExcluded] using hne, hw⟩

theorem isInstrOf_decodeFamily8 (x y : Reg) (n : Nibble) : IsInstrOf (decodeFamily8 x y n) (wordXYN 0x8#4 x y n) := by
  by_cases h : n ∈ family8Defined
  · simp only [family8Defined, List.mem_cons, List.not_mem_nil, or_false] at h
    rcases h with rfl | rfl | rfl | rfl | rfl | rfl | rfl | rfl | rfl <;> exact ⟨rfl, rfl⟩
  · rw [decodeFamily8_of_notMem x y h]
    exact ⟨by simpa [Instr.wf] using h, rfl⟩

theorem isInstrOf_decodeFamilyE (x : Reg) (nn : Byte) : IsInstrOf (decodeFamilyE x nn) (wordXNN 0xE#4 x nn) := by
  by_cases h : nn ∈ familyERecognised
  · simp only [familyERecognised, List.mem_cons, List.not_mem_nil, or_false] at h
    rcases h with rfl | rfl <;> exact ⟨rfl, rfl⟩
  · rw [decodeFamilyE_of_notMem x h]
    exact ⟨by simpa [Instr.wf] using h, rfl⟩

theorem isInstrOf_decodeFamilyF (x : Reg) (nn : Byte) : IsInstrOf (decodeFamilyF x nn) (wordXNN 0xF#4 x nn) := by
  by_cases h : nn ∈ familyFRecognised
  · simp only [familyFRecognised, List.mem_cons, List.not_mem_nil, or_false] at h
    rcases h with rfl | rfl | rfl | rfl | rfl | rfl | rfl | rfl | rfl <;> exact ⟨rfl, rfl⟩
  · rw [decodeFamilyF_of_notMem x h]
    exact ⟨by simpa [Instr.wf] using h, rfl⟩

/-- The one value of OP left over by the fifteen arms of the decoder (rule R55). -/
theorem op_eq_F : ∀ op : Nibble, op ∉ [0x0#4, 0x1#4, 0x2#4, 0x3#4, 0x4#4, 0x5#4, 0x6#4, 0x7#4, 0x8#4, 0x9#4, 0xA#4,
    0xB#4, 0xC#4, 0xD#4, 0xE#4] → op = 0xF#4 := by decide

theorem isInstrOf_decodeWord (w : Word) : IsInstrOf (decodeWord w) w := by
  have hnnn := wordNNN_fields w
  have hxnn := wordXNN_fields w
  have hxyn := wordXYN_fields w
  unfold decodeWord
  split
  case h_1 h => exact isInstrOf_decodeFamily0 h
  case h_9 h => rw [h] at hxyn; simpa only [hxyn] using isInstrOf_decodeFamily8 (fieldX w) (fieldY w) (fieldN w)
  case h_15 h => rw [h] at hxnn; simpa only [hxnn] using isInstrOf_decodeFamilyE (fieldX w) (fieldNN w)
  case h_16 =>
    have h : fieldOp w = 0xF#4 := op_eq_F _ (by simp only [List.mem_cons, List.not_mem_nil]; tauto)
    rw [h] at hxnn
    simpa only [hxnn] using isInstrOf_decodeFamilyF (fieldX w) (fieldNN w)
  case h_2 h | h_3 h | h_11 h | h_12 h => rw [h] at hnnn; exact ⟨rfl, hnnn⟩
  case h_4 h | h_5 h | h_7 h | h_8 h | h_13 h => rw [h] at hxnn; exact ⟨rfl, hxnn⟩
  case h_6 h | h_10 h | h_14 h => rw [h] at hxyn; exact ⟨rfl, hxyn⟩

/-- Settles O2: each arm of the decoder keeps the fields of the word that its row does not fix (rule R64). -/
theorem everyWordIsOneInstruction : Obligations.EveryWordIsOneInstruction :=
  isInstrOf_decodeWord

end Sys2Proof.Proofs

/-! Proofs of the opcode map and the undefined words (`30_encoding.md` rules R59, R61): the map as a search on the
fields of a word, and the statements. -/

namespace Sys2Proof.Proofs

open Sys2Proof.Machine

/-! ### The opcode map as a search on the fields of the word (rule R61) -/

/-- The priority of the first of the rows that matches. -/
def firstPriority (rows : List OpcodeRow) (w : Word) : Option Nat :=
  (rows.find? (fun row => row.matches w)).map (fun row => row.priority)

/-- The rows of one value of OP. -/
def familyRows (op : Nibble) : List OpcodeRow := opcodeTable.filter (fun row => fieldOp row.pattern == op)

/-- Every row fixes OP. -/
theorem mask_fixes_op : ∀ row ∈ opcodeTable, fieldOp row.mask = 0xF := by decide

theorem fieldOp_and (v w : Word) : fieldOp (v &&& w) = fieldOp v &&& fieldOp w := BitVec.extractLsb'_and

theorem fieldOp_of_matches {row : OpcodeRow} (hrow : row ∈ opcodeTable) {w : Word} (h : row.matches w = true) :
    fieldOp row.pattern = fieldOp w := by
  have hp : w &&& row.mask = row.pattern := by simpa [OpcodeRow.matches] using h
  rw [← hp, fieldOp_and, mask_fixes_op row hrow]
  exact nibble_and_ones _

/-- Only the rows of the word's own value of OP take part in the search. -/
theorem firstPriority_familyRows (w : Word) :
    firstPriority opcodeTable w = firstPriority (familyRows (fieldOp w)) w := by
  have hfind : opcodeTable.find? (fun row => row.matches w) =
      (familyRows (fieldOp w)).find? (fun row => row.matches w) := by
    rw [familyRows, List.find?_filter]
    refine List.find?_congr fun row hrow => ?_
    cases h : row.matches w with
    | false => simp
    | true => simp [fieldOp_of_matches hrow h]
  rw [firstPriority, firstPriority, hfind]

/-- Bits outside every mask do not take part in the search. -/
theorem firstPriority_and {rows : List OpcodeRow} {k : Word} (h : ∀ row ∈ rows, k &&& row.mask = row.mask) (w : Word) :
    firstPriority rows (w &&& k) = firstPriority rows w := by
  have hfind : rows.find? (fun row => row.matches (w &&& k)) = rows.find? (fun row => row.matches w) := by
    refine List.find?_congr fun row hrow => ?_
    rw [OpcodeRow.matches, OpcodeRow.matches, BitVec.and_assoc, h row hrow]
  rw [firstPriority, firstPriority, hfind]

theorem firstPriority_masked {w k : Word} {op : Nibble} (h : fieldOp w = op)
    (hmask : ∀ row ∈ familyRows op, k &&& row.mask = row.mask) :
    firstPriority opcodeTable w = firstPriority (familyRows op) (w &&& k) := by
  rw [firstPriority_familyRows, h, firstPriority_and hmask]

theorem and_mask_op (w : Word) : w &&& 0xF000 = wordNNN (fieldOp w) 0 := by
  rw [← wordNNN_and _ (fieldNNN w), wordNNN_fields]

theorem and_mask_opN (w : Word) : w &&& 0xF00F = wordXYN (fieldOp w) 0 0 (fieldN w) := by
  rw [← wordXYN_and_code _ (fieldX w) (fieldY w), wordXYN_fields]

theorem and_mask_opNN (w : Word) : w &&& 0xF0FF = wordXNN (fieldOp w) 0 (fieldNN w) := by
  rw [← wordXNN_and_code _ (fieldX w), wordXNN_fields]

/-- In a family of one row OP alone finds it (rule R55). -/
theorem firstPriority_of_op {w : Word} {op : Nibble} (h : fieldOp w = op)
    (hmask : ∀ row ∈ familyRows op, 0xF000 &&& row.mask = row.mask) :
    firstPriority opcodeTable w = firstPriority (familyRows op) (wordNNN op 0) := by
  rw [firstPriority_masked h hmask, and_mask_op, h]

/-- In families E and F NN finds the row (rule R56). -/
theorem firstPriority_of_nn {w : Word} {op : Nibble} (h : fieldOp w = op)
    (hmask : ∀ row ∈ familyRows op, 0xF0FF &&& row.mask = row.mask) :
    firstPriority opcodeTable w = firstPriority (familyRows op) (wordXNN op 0 (fieldNN w)) := by
  rw [firstPriority_masked h hmask, and_mask_opNN, h]

theorem firstPriority_family0 {w : Word} (h : fieldOp w = 0x0#4) :
    firstPriority opcodeTable w = some (decodeFamily0 w).priority := by
  have hrows : familyRows 0x0#4 =
      [⟨1, "CLS", 0x00E0, 0xFFFF⟩, ⟨2, "RET", 0x00EE, 0xFFFF⟩, ⟨3, "SYS_nnn", 0x0000, 0xF000⟩] := by decide
  have hwhole : w &&& 0xFFFF = w := BitVec.and_allOnes (x := w)
  have hsys : w &&& 0xF000 = 0x0000 := by rw [and_mask_op, h]; rfl
  rw [firstPriority_familyRows, h, hrows, firstPriority, decodeFamily0]
  simp only [List.find?_cons, OpcodeRow.matches, hwhole, hsys]
  by_cases hcls : w = 0x00E0
  · rw [if_pos hcls, beq_iff_eq.mpr hcls]; rfl
  · rw [if_neg hcls, beq_eq_false_iff_ne.mpr hcls]
    by_cases hret : w = 0x00EE
    · rw [if_pos hret, beq_iff_eq.mpr hret]; rfl
    · rw [if_neg hret, beq_eq_false_iff_ne.mpr hret]; rfl

theorem priority_decodeFamily8 (x y : Reg) (n : Nibble) :
    (decodeFamily8 x y n).priority = (decodeFamily8 0 0 n).priority := by
  unfold decodeFamily8
  split <;> rfl

theorem priority_decodeFamilyE (x : Reg) (nn : Byte) :
    (decodeFamilyE x nn).priority = (decodeFamilyE 0 nn).priority := by
  unfold decodeFamilyE
  split <;> rfl

theorem priority_decodeFamilyF (x : Reg) (nn : Byte) :
    (decodeFamilyF x nn).priority = (decodeFamilyF 0 nn).priority := by
  unfold decodeFamilyF
  split <;> rfl

theorem firstPriority_family8 {w : Word} (h : fieldOp w = 0x8#4) (x y : Reg) :
    firstPriority opcodeTable w = some (decodeFamily8 x y (fieldN w)).priority := by
  have hrow : ∀ n : Nibble,
      firstPriority (familyRows 0x8#4) (wordXYN 0x8#4 0 0 n) = some (decodeFamily8 0 0 n).priority := by decide
  rw [firstPriority_masked (k := 0xF00F) h (by decide), and_mask_opN, h, hrow, priority_decodeFamily8 x y]

theorem firstPriority_familyE {w : Word} (h : fieldOp w = 0xE#4) (x : Reg) :
    firstPriority opcodeTable w = some (decodeFamilyE x (fieldNN w)).priority := by
  have hrow : ∀ nn : Byte,
      firstPriority (familyRows 0xE#4) (wordXNN 0xE#4 0 nn) = some (decodeFamilyE 0 nn).priority := by decide
  rw [firstPriority_of_nn h (by decide), hrow, priority_decodeFamilyE x]

theorem firstPriority_familyF {w : Word} (h : fieldOp w = 0xF#4) (x : Reg) :
    firstPriority opcodeTable w = some (decodeFamilyF x (fieldNN w)).priority := by
  have hrow : ∀ nn : Byte,
      firstPriority (familyRows 0xF#4) (wordXNN 0xF#4 0 nn) = some (decodeFamilyF 0 nn).priority := by decide
  rw [firstPriority_of_nn h (by decide), hrow, priority_decodeFamilyF x]

/-- Settles O3: OP selects the family's rows, and in families 0, 8, E and F the whole word, N or NN selects among them
(rules R55, R56, R61). -/
theorem decoderFollowsOpcodeMap : Obligations.DecoderFollowsOpcodeMap := by
  intro w
  change firstPriority opcodeTable w = _
  unfold decodeWord
  split
  case h_1 h => exact firstPriority_family0 h
  case h_9 h => exact firstPriority_family8 h _ _
  case h_15 h => exact firstPriority_familyE h _
  case h_16 =>
    have h : fieldOp w = 0xF#4 := op_eq_F _ (by simp only [List.mem_cons, List.not_mem_nil]; tauto)
    exact firstPriority_familyF h _
  case h_2 h | h_3 h | h_4 h | h_5 h | h_6 h | h_7 h | h_8 h | h_10 h | h_11 h | h_12 h | h_13 h | h_14 h =>
    exact (firstPriority_of_op h (by decide)).trans rfl

/-! ### The undefined words (rule R59) -/

theorem mem_of_notMem_family8Defined :
    ∀ n : Nibble, n ∉ family8Defined → n ∈ [0x8#4, 0x9#4, 0xA#4, 0xB#4, 0xC#4, 0xD#4, 0xF#4] := by decide

theorem decodeWord_eq_undef8_iff {w : Word} :
    (∃ x y n, decodeWord w = .undef8 x y n) ↔ fieldOp w = 0x8#4 ∧ fieldN w ∉ family8Defined := by
  constructor
  · rintro ⟨x, y, n, h⟩
    obtain ⟨hwf, rfl⟩ := h ▸ isInstrOf_decodeWord w
    exact ⟨fieldOp_wordXYN _ _ _ _, by simpa [encodeWord, Instr.wf] using hwf⟩
  · rintro ⟨hop, hn⟩
    refine ⟨fieldX w, fieldY w, fieldN w, ?_⟩
    rw [decodeWord, hop]
    exact decodeFamily8_of_notMem _ _ hn

theorem decodeWord_eq_undefE_iff {w : Word} :
    (∃ x nn, decodeWord w = .undefE x nn) ↔ fieldOp w = 0xE#4 ∧ fieldNN w ∉ familyERecognised := by
  constructor
  · rintro ⟨x, nn, h⟩
    obtain ⟨hwf, rfl⟩ := h ▸ isInstrOf_decodeWord w
    exact ⟨fieldOp_wordXNN _ _ _, by simpa [encodeWord, Instr.wf] using hwf⟩
  · rintro ⟨hop, hnn⟩
    refine ⟨fieldX w, fieldNN w, ?_⟩
    rw [decodeWord, hop]
    exact decodeFamilyE_of_notMem _ hnn

theorem decodeWord_eq_undefF_iff {w : Word} :
    (∃ x nn, decodeWord w = .undefF x nn) ↔ fieldOp w = 0xF#4 ∧ fieldNN w ∉ familyFRecognised := by
  constructor
  · rintro ⟨x, nn, h⟩
    obtain ⟨hwf, rfl⟩ := h ▸ isInstrOf_decodeWord w
    exact ⟨fieldOp_wordXNN _ _ _, by simpa [encodeWord, Instr.wf] using hwf⟩
  · rintro ⟨hop, hnn⟩
    refine ⟨fieldX w, fieldNN w, ?_⟩
    rw [decodeWord, hop]
    exact decodeFamilyF_of_notMem _ hnn

/-- Settles O4: an undefined row is well formed exactly off its family's list, and each word is the encoding of what it
decodes to (rule R59). -/
theorem undefinedWordsAreExactly : Obligations.UndefinedWordsAreExactly :=
  fun _ => ⟨decodeWord_eq_undef8_iff.trans
      (and_congr_right fun _ => ⟨mem_of_notMem_family8Defined _, notMem_family8Defined _⟩),
    decodeWord_eq_undefE_iff, decodeWord_eq_undefF_iff⟩

/-- Settles O5: nine closed words (sanity). -/
theorem sampleWordsDecode : Obligations.SampleWordsDecode := by
  unfold Obligations.SampleWordsDecode
  decide

end Sys2Proof.Proofs

/-! Proofs of the step (`30_encoding.md` rule R54, `60_exceptions.md` section 3): the fetch, what a step of a running
core can do, the invariant of the machine, and the statements. -/

namespace Sys2Proof.Proofs

open Sys2Proof.Machine

/-! ### The fetch (`20_memory.md` rule R34) -/

theorem fetchCheck_of_le {s : State} (h : s.pc.toNat ≤ 0xE9E) : fetchCheck s = none :=
  fetchCheck_eq_none.mpr (by simp only [Config.reservedBase]; omega)

theorem fetchCheck_of_first {s : State} {c : FaultCause} (h : checkAddr .fetch s.pc.toNat = some c) :
    fetchCheck s = some (c, s.pc.toNat) := by
  simp [fetchCheck, checkAddrs, State.fetchAddr, h]

/-- The word at the last legal address fails on its second byte (rule R168). -/
theorem fetchCheck_of_second {s : State} (h : s.pc.toNat = 0xE9F) : fetchCheck s = some (.fetchReserved, 0xEA0) := by
  simp [fetchCheck, checkAddrs, State.fetchAddr, h, checkAddr, reservedCause]

theorem step_of_legal {s : State} (hrun : s.status = .run) (h : fetchCheck s = none) :
    step s = exec (decodeWord (fetchWord s)) s := by
  simp only [step, hrun, h]

theorem step_of_fetch {s : State} (hrun : s.status = .run) (hpc : s.pc.toNat ≤ 0xE9E) :
    step s = exec (decodeWord (fetchWord s)) s :=
  step_of_legal hrun (fetchCheck_of_le hpc)

theorem step_of_bytes {s : State} {hi lo : Byte} (hrun : s.status = .run) (hpc : s.pc.toNat ≤ 0xE9E)
    (hhi : s.mem.read s.pc.toNat = hi) (hlo : s.mem.read (s.pc.toNat + 1) = lo) :
    step s = exec (decodeWord (wordOfBytes hi lo)) s := by
  rw [step_of_fetch hrun hpc, ← hhi, ← hlo]
  rfl

theorem step_of_fetchFault {s : State} {c : FaultCause} {a : Nat} (hrun : s.status = .run)
    (h : fetchCheck s = some (c, a)) : step s = .next (takeFault c a s) := by
  simp only [step, hrun, h, fetchFault]

theorem step_of_fault {s : State} (h : s.status = .fault) : step s = .next s := by
  simp only [step, h, ignoredStep]

/-- Settles O6: a legal fetch reads the two bytes at PC, so the step is `exec` of what they decode to. -/
theorem stepRunsDecodedInstruction : Obligations.StepRunsDecodedInstruction := by
  intro s i hrun hpc hdecode
  rw [decode_two] at hdecode
  obtain ⟨rfl, -⟩ := Prod.mk.inj (Except.ok.inj hdecode)
  exact step_of_fetch hrun hpc

theorem step_faulted {s : State} {c : FaultCause} {a : Nat} (hrun : s.status = .run) (h : fetchCheck s = some (c, a))
    (ha : a < 2 ^ 17) : ∃ t, step s = .next t ∧ Faulted c a s t :=
  ⟨_, step_of_fetchFault hrun h, faulted_takeFault ha s⟩

/-- Settles O7: the three ranges of PC are the second byte's fault and the two faults of the first byte. -/
theorem fetchOutsideWindowFaults : Obligations.FetchOutsideWindowFaults := by
  intro s hrun
  have hlt : s.pc.toNat < 2 ^ 17 := by omega
  refine ⟨fun hpc => step_faulted hrun (fetchCheck_of_second hpc) (by decide), fun hlo hhi => ?_, fun hlo => ?_⟩
  · have hc : checkAddr .fetch s.pc.toNat = some .fetchReserved := by
      simp only [checkAddr, Config.reservedBase, Config.memSize, reservedCause]
      rw [if_neg (by omega), if_pos (by omega)]
    exact step_faulted hrun (fetchCheck_of_first hc) hlt
  · have hc : checkAddr .fetch s.pc.toNat = some .fetchRange := by
      simp only [checkAddr, Config.reservedBase, Config.memSize, rangeCause]
      rw [if_neg (by omega), if_neg (by omega)]
    exact step_faulted hrun (fetchCheck_of_first hc) hlt

/-- Settles O8: STATUS is looked at first (rules R54, R167). -/
theorem faultedCoreIgnoresSteps : Obligations.FaultedCoreIgnoresSteps :=
  fun _ h => step_of_fault h

/-! ### What a step of a running core can do -/

/-- The step faulted on a byte address that a fetch or a data access can name: PC + 1 and I + 14 are the highest (rules
R34, R38). -/
def StepFaulted (s t : State) : Prop :=
  ∃ k c a, checkAddr k a = some c ∧ a ≤ 0x1000D ∧ t = takeFault c a s

theorem mem_of_checkAddrs {k : Access} {l : List Nat} {c : FaultCause} {a : Nat} (h : checkAddrs k l = some (c, a)) :
    a ∈ l ∧ checkAddr k a = some c := by
  obtain ⟨pre, post, rfl, -, hc⟩ := checkAddrs_eq_some.mp h
  exact ⟨by simp, hc⟩

theorem stepFaulted_of_fetch {s : State} {c : FaultCause} {a : Nat} (h : fetchCheck s = some (c, a)) :
    StepFaulted s (takeFault c a s) := by
  obtain ⟨hmem, hc⟩ := mem_of_checkAddrs h
  refine ⟨_, c, a, hc, ?_, rfl⟩
  have hpc := s.pc.isLt
  simp only [State.fetchAddr, List.mem_cons, List.not_mem_nil, or_false] at hmem
  omega

theorem stepFaulted_of_data {s t : State} (h : DataFaulted s t) : StepFaulted s t := by
  obtain ⟨n, c, a, hn, rfl⟩ := h
  obtain ⟨-, -, rfl, hc⟩ := checkAddrs_dataAddrs_eq_some.mp hn
  refine ⟨_, c, _, hc, ?_, rfl⟩
  have hi := s.i.isLt
  simp only [Config.reservedBase]
  omega

/-- A step of a running core faults, or it fetches inside the legal window and completes. -/
theorem step_run_cases {s t : State} (hrun : s.status = .run) (h : step s = .next t) :
    StepFaulted s t ∨ s.pc.toNat + 1 < Config.reservedBase ∧ Completed s t := by
  rcases step_cases s with ⟨hf, -⟩ | ⟨-, c, a, hfetch, hstep⟩ | ⟨-, hfetch, hstep⟩
  · rw [hrun] at hf; cases hf
  · obtain rfl : takeFault c a s = t := by simpa [hstep] using h
    exact .inl (stepFaulted_of_fetch hfetch)
  · rcases exec_cases (hstep ▸ h) with hdata | hcompleted
    · exact .inl (stepFaulted_of_data hdata)
    · exact .inr ⟨fetchCheck_eq_none.mp hfetch, hcompleted⟩

theorem completed_faultRegs {s t : State} (h : Completed s t) : Same .faultRegs s t ∧ t.outputs ≠ none := by
  obtain ⟨u, target, d, rfl, -, hst, hc, ha, -⟩ := h
  exact ⟨⟨hst, hc, ha⟩, by simp⟩

theorem cause_ne_none {k : Access} {a : Nat} {c : FaultCause} (h : checkAddr k a = some c) : c ≠ .none := by
  rcases (checkAddr_eq_some h).2 with ⟨-, rfl⟩ | ⟨-, rfl⟩ <;> cases k <;> simp [reservedCause, rangeCause]

/-- Settles O9: a completed step keeps the fault registers, and a faulted one is the fault entry alone (rule R167). -/
theorem stepFaultsArePrecise : Obligations.StepFaultsArePrecise := by
  intro s t hrun h
  rcases step_run_cases hrun h with ⟨k, c, a, hc, ha, rfl⟩ | ⟨-, hcompleted⟩
  · have haddr : (takeFault c a s).faddr.toNat = a := Nat.mod_eq_of_lt (by omega)
    rw [haddr]
    exact .inr ⟨cause_ne_none hc, (checkAddr_eq_some hc).1, faulted_takeFault (by omega) s⟩
  · exact .inl (completed_faultRegs hcompleted)

/-! ### The invariant -/

/-- The fault registers of a fault entry (rules R166, R167). -/
theorem faultInv_takeFault {k : Access} {c : FaultCause} {a : Nat} (hc : checkAddr k a = some c) (ha : a ≤ 0x1000D)
    (s : State) : FaultInv (takeFault c a s) := by
  have haddr : (BitVec.ofNat 17 a).toNat = a := Nat.mod_eq_of_lt (by omega)
  obtain ⟨hlo, hregion⟩ := checkAddr_eq_some hc
  simp only [FaultInv, takeFault_status, takeFault_outputs, takeFault_fcause, takeFault_faddr, haddr, true_and]
  rcases hregion with ⟨hhi, rfl⟩ | ⟨hhi, rfl⟩
  · exact .inl ⟨by cases k <;> simp [reservedCause], hlo, hhi⟩
  · exact .inr ⟨by cases k <;> simp [rangeCause], hhi, ha⟩

/-- A completed step of a running core leaves the fault registers at their reset values. -/
theorem faultInv_of_completed {s t : State} (hrun : s.status = .run) (hinv : FaultInv s) (h : Completed s t) :
    FaultInv t := by
  obtain ⟨hst, hc, ha⟩ := (completed_faultRegs h).1
  simp only [FaultInv, hrun] at hinv
  simp only [FaultInv, hst, hrun, hc, ha]
  exact hinv

/-- The sums of rules R13 and R74 do not wrap. -/
theorem word_add_toNat {v w : Word} (h : v.toNat + w.toNat < 0x10000) : (v + w).toNat = v.toNat + w.toNat :=
  BitVec.toNat_add_of_lt h

/-- The entry that a pop makes PC is a live return address. -/
theorem top_le_of_stackInv {s : State} {target : Word} (hstack : StackInv s) (hsp : s.sp ≠ 0)
    (htop : s.top = some target) : target.toNat ≤ Config.reservedBase := by
  obtain ⟨hdepth, hlive⟩ := hstack
  have hpos : s.sp.toNat ≠ 0 := fun h => hsp (BitVec.eq_of_toNat_eq h)
  simp only [Config.stackDepth] at hdepth
  rw [top_eq (by omega)] at htop
  obtain rfl := Option.some.inj htop
  exact (hlive _ (by simp only; omega)).2

/-- Every PC that an instruction inside the window writes is at most 0x10FE: NNN + V0 is the highest (rule R13). -/
theorem target_le_of_stackMove {s u : State} {target : Word} (hstack : StackInv s)
    (hpc : s.pc.toNat + 1 < Config.reservedBase) (h : StackMove s u target) : target.toNat ≤ 0x10FE := by
  have hjump : ∀ nnn : Addr12, (zextAddr nnn).toNat ≤ 0xFFF := fun nnn => by
    have := nnn.isLt
    rw [zextAddr_toNat]
    omega
  simp only [Config.reservedBase] at hpc
  rcases h with ⟨-, -, rfl | rfl | rfl | ⟨nnn, rfl⟩ | ⟨nnn, b, rfl⟩⟩ | ⟨-, -, -, nnn, rfl⟩ | ⟨hsp, -, -, htop⟩
  · omega
  · rw [word_add_toNat] <;> simp <;> omega
  · rw [word_add_toNat] <;> simp <;> omega
  · exact (hjump nnn).trans (by decide)
  · have hnnn := hjump nnn
    have hb : (zextByte b).toNat ≤ 0xFF := by have := b.isLt; rw [zextByte_toNat]; omega
    rw [word_add_toNat] <;> omega
  · exact (hjump nnn).trans (by decide)
  · exact (top_le_of_stackInv hstack hsp htop).trans (by decide)

/-- A push adds the address after a CALL that was fetched inside the window; a pop leaves fewer live entries (rule R22).
-/
theorem stackInv_of_stackMove {s u : State} {target : Word} (hstack : StackInv s)
    (hpc : s.pc.toNat + 1 < Config.reservedBase) (h : StackMove s u target) : StackInv u := by
  obtain ⟨hdepth, hlive⟩ := hstack
  rcases h with ⟨hsp, hstk, -⟩ | ⟨hlt, hsp, hstk, -⟩ | ⟨hne, hsp, hstk, -⟩
  · simp only [StackInv, hsp, hstk]
    exact ⟨hdepth, hlive⟩
  · simp only [StackInv, hsp, hstk, push_sp_toNat _ hlt]
    refine ⟨hlt, fun k hk => ?_⟩
    rw [get_push]
    split
    · simp only [Config.reservedBase] at hpc ⊢
      rw [word_add_toNat] <;> simp <;> omega
    · exact hlive k (by omega)
  · simp only [StackInv, hsp, hstk, pop_sp_toNat hne]
    exact ⟨by omega, fun k hk => hlive k (by omega)⟩

theorem wf_of_memMove {s u : State} (hwf : s.mem.wf) (h : MemMove s u) : u.mem.wf := by
  rcases h with hm | ⟨n, hn, hm⟩
  · exact hm ▸ hwf
  · rw [hm]
    exact wf_storeBlock hwf (hn.imp_right fun h => h.trans (by decide))

theorem machineInv_of_completed {s t : State} (hrun : s.status = .run) (hinv : MachineInv s)
    (hpc : s.pc.toNat + 1 < Config.reservedBase) (h : Completed s t) : MachineInv t := by
  obtain ⟨hstack, -, hwf, hfault⟩ := hinv
  have hfault' := faultInv_of_completed hrun hfault h
  obtain ⟨u, target, d, rfl, -, -, -, -, hmove, hmem⟩ := h
  exact ⟨stackInv_of_stackMove hstack hpc hmove, target_le_of_stackMove hstack hpc hmove, wf_of_memMove hwf hmem,
    hfault'⟩

theorem machineInv_of_stepFaulted {s t : State} (hinv : MachineInv s) (h : StepFaulted s t) : MachineInv t := by
  obtain ⟨hstack, hpcInv, hwf, -⟩ := hinv
  obtain ⟨k, c, a, hc, ha, rfl⟩ := h
  exact ⟨hstack, hpcInv, hwf, faultInv_takeFault hc ha s⟩

theorem step_machineInv {s t : State} (hinv : MachineInv s) (h : step s = .next t) : MachineInv t := by
  cases hst : s.status with
  | fault =>
    obtain rfl : s = t := by simpa [step_of_fault hst] using h
    exact hinv
  | run =>
    rcases step_run_cases hst h with hfaulted | ⟨hpc, hcompleted⟩
    · exact machineInv_of_stepFaulted hinv hfaulted
    · exact machineInv_of_completed hst hinv hpc hcompleted

/-- Settles O10: a fault entry writes fault registers that fit its address, and a completed step keeps each part by the
move it made (rules R13, R17, R22). -/
theorem stepKeepsInvariant : Obligations.StepKeepsInvariant :=
  fun _ _ => step_machineInv

theorem machineInv_resetAt {e : Word} (he : e.toNat ≤ 0x10FE) : MachineInv (State.resetAt e) :=
  ⟨⟨Nat.zero_le 12, fun _ hk => absurd hk (Nat.not_lt_zero _)⟩, he, Memory.wf_nil, rfl, rfl⟩

theorem machineInv_loadImage {s : State} (h : MachineInv s) (img : List Byte) : MachineInv (s.loadImage img) := by
  obtain ⟨hstack, hpc, hwf, hfault⟩ := h
  have hlen : Config.progBase + (img.take Config.maxImage).length ≤ Config.memSize := by
    simp only [List.length_take, Config.progBase, Config.maxImage, Config.memSize]
    omega
  exact ⟨hstack, hpc, wf_writeImage _ hwf hlen, hfault⟩

/-- Settles O11: the empty stack, the empty memory list and the zero fault registers of reset meet the invariant, and
the image ends below the address space's end. -/
theorem resetAndLoadHaveInvariant : Obligations.ResetAndLoadHaveInvariant :=
  ⟨machineInv_resetAt (by decide), fun _ => machineInv_resetAt, fun _ img h => machineInv_loadImage h img⟩

/-- With SP legal every instruction answers a next state. -/
theorem exec_next_of_stackInv (i : Instr) {s : State} (h : StackInv s) : ∃ t, exec i s = .next t := by
  cases hexec : exec i s with
  | next t => exact ⟨t, rfl⟩
  | fault r => exact absurd h.1 (exec_stops_only_at_ret hexec).2.1.not_ge
  | refused r => exact absurd hexec exec_not_refused

theorem step_next_of_inv {s : State} (hinv : MachineInv s) : ∃ t, step s = .next t := by
  rcases step_cases s with ⟨-, h⟩ | ⟨-, c, a, -, h⟩ | ⟨-, -, h⟩
  · exact ⟨_, h⟩
  · exact ⟨_, h⟩
  · exact h ▸ exec_next_of_stackInv _ hinv.1

/-- Settles O12: no instruction is refused, only RET above depth 12 stops, and the invariant excludes that depth. -/
theorem stepNeverStuck : Obligations.StepNeverStuck := by
  intro s hinv
  obtain ⟨t, h⟩ := step_next_of_inv hinv
  exact ⟨t, h, step_machineInv hinv h⟩

/-! ### The host's placing of one word -/

theorem tableWord_toNat (w : Word) : tableWord 16 w.toNat = w := by
  rw [tableWord, Nat.mod_eq_of_lt w.isLt, BitVec.ofNat_toNat, BitVec.setWidth_eq]

/-- The memory with one word at an address, the high byte first. -/
def placeWord (m : Memory) (a : Nat) (w : Word) : Memory := (m.write a (highByte w)).write (a + 1) (lowByte w)

theorem read_placeWord_high (m : Memory) (a : Nat) (w : Word) : (placeWord m a w).read a = highByte w := by
  rw [placeWord, Memory.read_write_of_ne _ _ (by omega), Memory.read_write_self]

theorem read_placeWord_low (m : Memory) (a : Nat) (w : Word) : (placeWord m a w).read (a + 1) = lowByte w :=
  Memory.read_write_self _ _ _

theorem withFetchWord_of_le {s : State} (h : s.pc.toNat ≤ 0xE9E) (w : Word) :
    s.withFetchWord 16 w.toNat = { s with mem := placeWord s.mem s.pc.toNat w } := by
  simp only [State.withFetchWord, tableWord_toNat, placeFetchWord, fetchCheck_of_le h]
  rfl

theorem onlyChanges_with_mem (s : State) (m : Memory) : OnlyChanges [.memory] s { s with mem := m } :=
  onlyChanges_of fun p => by cases p <;> simp [Same]

/-- Settles O14: the two bytes written are the two that the fetch reads (rule R34). -/
theorem placedWordIsExecuted : Obligations.PlacedWordIsExecuted := by
  intro s w hrun hpc
  rw [withFetchWord_of_le hpc]
  refine ⟨?_, onlyChanges_with_mem s _, fun a hne hne' => ?_⟩
  · have hstep := step_of_bytes (s := { s with mem := placeWord s.mem s.pc.toNat w }) hrun hpc
      (read_placeWord_high _ _ _) (read_placeWord_low _ _ _)
    rwa [wordOfBytes_high_low] at hstep
  · exact (Memory.read_write_of_ne _ _ hne').trans (Memory.read_write_of_ne _ _ hne)

/-! ### Reset -/

/-- Settles O15: field by field from `State.resetAt` (rule R21). -/
theorem resetZeroesEverything : Obligations.ResetZeroesEverything :=
  ⟨rfl, fun e => ⟨resetAt_reg e, rfl, rfl, rfl, Vector.get_replicate 12 0, Vector.get_replicate 32 0, Memory.read_nil,
    rfl, rfl, rfl⟩⟩

/-- Settles O22: SP - 1 is no index of the twelve entries, so there is no top to pop. -/
theorem retAboveDepth12Stops : Obligations.RetAboveDepth12Stops := by
  intro s h
  have hsp : s.sp ≠ 0 := by
    rintro h0
    simp [h0] at h
  have htop : s.top = none := by
    rw [State.top]
    exact Vector.getElem?_eq_none (by omega)
  simp only [exec, execRet, if_neg hsp, htop]

end Sys2Proof.Proofs

/-! Proof of the driver's run (`70_reset_and_hazards.md` rule R183): one equation per way a step can end the loop or go
on, what a loop of a given budget guarantees, and the statement. -/

namespace Sys2Proof.Proofs

open Sys2Proof.Machine

/-! ### One turn of the loop -/

theorem driverFrom_of_fault {s t : State} (budget k : Nat) (hrun : s.status = .run) (hstep : step s = .next t)
    (ht : t.status = .fault) : driverFrom (budget + 1) k s = ⟨k + 1, .fault, t⟩ := by
  simp only [driverFrom, hrun, hstep, ht]

theorem driverFrom_of_noProgress {s t : State} (budget k : Nat) (hrun : s.status = .run) (hstep : step s = .next t)
    (ht : t.status = .run) (hnp : t.noProgress = true) :
    driverFrom (budget + 1) k s = ⟨k + 1, .noProgress, t⟩ := by
  simp only [driverFrom, hrun, hstep, ht, hnp, if_true]

theorem driverFrom_of_progress {s t : State} (budget k : Nat) (hrun : s.status = .run) (hstep : step s = .next t)
    (ht : t.status = .run) (hnp : t.noProgress = false) :
    driverFrom (budget + 1) k s = driverFrom budget (k + 1) t := by
  simp [driverFrom, hrun, hstep, ht, hnp]

theorem core_run_succ {s t : State} (h : step s = .next t) (n : Nat) :
    Sys2Proof.core.run (n + 1) s = Sys2Proof.core.run n t := by
  have hstep : Sys2Proof.core.step s = .next t := h
  simp only [Host.Core.run, hstep]

/-! ### What a loop guarantees -/

/-- The reason says how the last of n steps ended (rule R183, decision D14). -/
def ReasonSays (budget n : Nat) (e : RunEnd) : Prop :=
  (e.reason = .fault ∧ e.final.status = .fault) ∨
    (e.reason = .noProgress ∧ e.final.status = .run ∧ e.final.noProgress = true) ∨
    (e.reason = .budget ∧ e.final.status = .run ∧ n = budget ∧ (0 < n → e.final.noProgress = false))

/-- From s the loop took n steps, within the budget, and only the last one can have ended it. -/
structure LoopEnds (budget n : Nat) (s : State) (e : RunEnd) : Prop where
  steps_le : n ≤ budget
  reaches : Sys2Proof.core.run n s = .next e.final
  goes_on : ∀ (j : Nat) (u : State), 0 < j → j < n → Sys2Proof.core.run j s = .next u →
    u.status = .run ∧ u.noProgress = false
  reason_says : ReasonSays budget n e

/-- A loop that its first step ends. -/
theorem loopEnds_one {budget k : Nat} {s t : State} {reason : StopReason} (hstep : step s = .next t)
    (hreason : ReasonSays (budget + 1) 1 ⟨k, reason, t⟩) : LoopEnds (budget + 1) 1 s ⟨k, reason, t⟩ where
  steps_le := by omega
  reaches := core_run_succ hstep 0
  goes_on := by omega
  reason_says := hreason

/-- A loop that goes on after its first step. -/
theorem loopEnds_succ {budget n : Nat} {s t : State} {e : RunEnd} (hstep : step s = .next t) (ht : t.status = .run)
    (hnp : t.noProgress = false) (h : LoopEnds budget n t e) : LoopEnds (budget + 1) (n + 1) s e where
  steps_le := Nat.succ_le_succ h.steps_le
  reaches := (core_run_succ hstep n).trans h.reaches
  goes_on := by
    intro j u hj hjn hu
    obtain ⟨j, rfl⟩ : ∃ i, j = i + 1 := ⟨j - 1, by omega⟩
    rw [core_run_succ hstep] at hu
    cases j with
    | zero =>
      obtain rfl : t = u := Host.Outcome.next.inj hu
      exact ⟨ht, hnp⟩
    | succ j => exact h.goes_on _ u (by omega) (by omega) hu
  reason_says := by
    refine h.reason_says.imp_right (Or.imp_right fun ⟨hr, hst, hn, hlast⟩ => ⟨hr, hst, by omega, fun _ => ?_⟩)
    cases n with
    | zero =>
      obtain rfl : t = e.final := Host.Outcome.next.inj h.reaches
      exact hnp
    | succ n => exact hlast (Nat.succ_pos n)

theorem driverFrom_loopEnds (budget k : Nat) {s : State} (hinv : MachineInv s) (hrun : s.status = .run) :
    ∃ n, (driverFrom budget k s).steps = k + n ∧ LoopEnds budget n s (driverFrom budget k s) := by
  induction budget generalizing k s with
  | zero =>
    exact ⟨0, rfl, le_rfl, rfl, by omega, .inr (.inr ⟨rfl, hrun, rfl, fun h => absurd h (Nat.lt_irrefl 0)⟩)⟩
  | succ budget ih =>
    obtain ⟨t, hstep, hinv'⟩ := stepNeverStuck s hinv
    cases ht : t.status with
    | fault =>
      rw [driverFrom_of_fault budget k hrun hstep ht]
      exact ⟨1, rfl, loopEnds_one hstep (.inl ⟨rfl, ht⟩)⟩
    | run =>
      cases hnp : t.noProgress with
      | true =>
        rw [driverFrom_of_noProgress budget k hrun hstep ht hnp]
        exact ⟨1, rfl, loopEnds_one hstep (.inr (.inl ⟨rfl, ht, hnp⟩))⟩
      | false =>
        rw [driverFrom_of_progress budget k hrun hstep ht hnp]
        obtain ⟨n, hsteps, hends⟩ := ih (k + 1) hinv' ht
        exact ⟨n + 1, by omega, loopEnds_succ hstep ht hnp hends⟩

/-- Settles O17: by induction on the budget; the invariant is kept, so no step stops the model (rule R183). -/
theorem runEndsAsDriverSays : Obligations.RunEndsAsDriverSays := by
  intro maxSteps s hinv hrun
  obtain ⟨n, hsteps, hle, hreaches, hgoes, hreason⟩ := driverFrom_loopEnds maxSteps 0 hinv hrun
  obtain rfl : (run maxSteps s).steps = n := hsteps.trans (Nat.zero_add n)
  exact ⟨hle, hreaches, hgoes, hreason⟩

end Sys2Proof.Proofs

/-! Proofs of what each instruction writes (`10_state.md`): the parts of the state that an instruction can change, as a
list, one frame for `exec` from it, and the statements that follow. -/

namespace Sys2Proof.Proofs

open Sys2Proof.Machine

/-! ### The parts an instruction writes -/

/-- The parts that an instruction writes beside PC and the outputs, where it completes. -/
def writes : Instr → List Part
  | .cls => [.framebuffer]
  | .ret | .call _ => [.callStack]
  | .ldImm _ _ | .addImm _ _ | .ldReg _ _ | .orReg _ _ | .andReg _ _ | .xorReg _ _ | .addReg _ _ | .subReg _ _
  | .shr _ _ | .subnReg _ _ | .shl _ _ | .loadRegs _ => [.regs]
  | .rnd _ _ => [.regs, .draws]
  | .drw _ _ _ => [.regs, .framebuffer]
  | .ldI _ | .addI _ => [.index]
  | .storeRegs _ => [.memory]
  | .sys _ | .jp _ | .jpV0 _ | .seImm _ _ | .sneImm _ _ | .seReg _ _ _ | .sneReg _ _ _ | .undef8 _ _ _ | .undefE _ _
  | .undefF _ _ | .skp _ | .sknp _ | .ldVxDT _ | .ldVxK _ | .ldDTVx _ | .ldSTVx _ | .ldFVx _ | .ldBVx _ => []

theorem onlyChanges_refl (s : State) : OnlyChanges [] s s :=
  onlyChanges_of fun p => by cases p <;> simp [Same]

theorem onlyChanges_with_v (s : State) (v : Vector Byte 16) : OnlyChanges [.regs] s { s with v := v } :=
  onlyChanges_of fun p => by cases p <;> simp [Same]

theorem onlyChanges_draw (s : State) (v : Vector Byte 16) :
    OnlyChanges [.regs, .draws] s (State.countDraw { s with v := v }) :=
  onlyChanges_of fun p => by cases p <;> simp [Same]

theorem onlyChanges_with_fb_v (s : State) (fb : Vector PixelRow 32) (v : Vector Byte 16) :
    OnlyChanges [.regs, .framebuffer] s { s with fb := fb, v := v } :=
  onlyChanges_of fun p => by cases p <;> simp [Same]

theorem onlyChanges_takeFault (c : FaultCause) (a : Nat) (s : State) :
    OnlyChanges [.faultRegs, .outputs] s (takeFault c a s) :=
  onlyChanges_of fun p => by cases p <;> simp [Same]

/-- The parts that an instruction can change where it may fault, too. -/
def Frame (i : Instr) (s t : State) : Prop := OnlyChanges (.pc :: .outputs :: .faultRegs :: writes i) s t

theorem frame_complete {i : Instr} {s u : State} (h : OnlyChanges (writes i) s u) (target : Word) (d : Diag) :
    Frame i s (complete target d u) :=
  onlyChanges_mono (onlyChanges_complete_of h target d) (by intro p; simp only [List.mem_cons]; tauto)

theorem frame_accessing {i : Instr} {k : Access} {l : List Nat} {s u t : State} (hu : OnlyChanges (writes i) s u)
    (h : accessing k l s (advance u) = .next t) : Frame i s t := by
  rcases accessing_cases h with ⟨c, a, -, rfl⟩ | ⟨-, rfl⟩
  · exact onlyChanges_mono (onlyChanges_takeFault c a s) (by simp)
  · exact frame_complete hu _ _

/-- The frame of every instruction: what is not on its list, it keeps. -/
theorem exec_frame {i : Instr} {s t : State} (h : exec i s = .next t) : Frame i s t := by
  cases i with
  | cls => cases h; refine frame_complete ?_ _ _; exact onlyChanges_with_fb s _
  | ret =>
    simp only [exec, execRet] at h
    split at h
    · cases h; refine frame_complete ?_ _ _; exact onlyChanges_mono (onlyChanges_refl s) (by simp)
    · split at h
      · cases h; refine frame_complete ?_ _ _; exact onlyChanges_pop s
      · cases h
  | call nnn =>
    simp only [exec, execCall] at h
    split at h
    · cases h; refine frame_complete ?_ _ _; exact onlyChanges_push s _
    · cases h; refine frame_complete ?_ _ _; exact onlyChanges_mono (onlyChanges_refl s) (by simp)
  | ldImm | addImm | ldReg | orReg | andReg | xorReg | addReg | subReg | shr | subnReg | shl =>
    cases h; refine frame_complete ?_ _ _; exact onlyChanges_with_v s _
  | rnd => cases h; refine frame_complete ?_ _ _; exact onlyChanges_draw s _
  | ldI | addI => cases h; refine frame_complete ?_ _ _; exact onlyChanges_with_i s _
  | drw => exact frame_accessing (onlyChanges_with_fb_v s _ _) h
  | storeRegs => exact frame_accessing (onlyChanges_with_mem s _) h
  | loadRegs => exact frame_accessing (onlyChanges_with_v s _) h
  | sys | jp | jpV0 | seImm | sneImm | seReg | sneReg | undef8 | undefE | undefF | skp | sknp | ldVxDT | ldVxK | ldDTVx
  | ldSTVx | ldFVx | ldBVx => cases h; refine frame_complete ?_ _ _; exact onlyChanges_refl s

/-! ### The only writers of a part -/

theorem eq_rnd_of_writes {i : Instr} (h : .draws ∈ writes i) : ∃ x nn, i = .rnd x nn := by
  cases i <;> simp [writes] at h ⊢

theorem eq_cls_or_drw_of_writes {i : Instr} (h : .framebuffer ∈ writes i) : i = .cls ∨ ∃ x y n, i = .drw x y n := by
  cases i <;> simp [writes] at h ⊢

theorem eq_ldI_or_addI_of_writes {i : Instr} (h : .index ∈ writes i) : (∃ nnn, i = .ldI nnn) ∨ ∃ x, i = .addI x := by
  cases i <;> simp [writes] at h ⊢

theorem eq_storeRegs_of_writes {i : Instr} (h : .memory ∈ writes i) : ∃ x, i = .storeRegs x := by
  cases i <;> simp [writes] at h ⊢

theorem eq_ret_or_call_of_writes {i : Instr} (h : .callStack ∈ writes i) : i = .ret ∨ ∃ nnn, i = .call nnn := by
  cases i <;> simp [writes] at h ⊢

/-- A part that an instruction changed is on its list. -/
theorem mem_writes_of_not_same {i : Instr} {s t : State} {p : Part} (h : exec i s = .next t) (hp : ¬ Same p s t)
    (hfix : p ∉ [.pc, .outputs, .faultRegs] := by simp) : p ∈ writes i := by
  by_contra hmem
  refine hp (exec_frame h p ?_)
  simp only [List.mem_cons, List.not_mem_nil, or_false] at hfix ⊢
  tauto

/-- Settles O35: the draw counter is on the list of RND alone (rules R20, R93). -/
theorem onlyRndDraws : Obligations.OnlyRndDraws := by
  intro i s t h hne
  by_contra hdraws
  obtain ⟨x, nn, rfl⟩ := eq_rnd_of_writes (mem_writes_of_not_same h hdraws)
  exact hne x nn rfl

/-- Settles O50: the framebuffer is on the lists of CLS and DRW alone (rule R15). -/
theorem onlyClsAndDrwWriteFramebuffer : Obligations.OnlyClsAndDrwWriteFramebuffer :=
  fun _ _ _ h hfb => eq_cls_or_drw_of_writes (mem_writes_of_not_same h hfb)

/-- Settles O53: I is on the lists of LD I and ADD I alone (rule R12). -/
theorem onlyTwoWriteIndex : Obligations.OnlyTwoWriteIndex :=
  fun _ _ _ h hi => eq_ldI_or_addI_of_writes (mem_writes_of_not_same h hi)

/-- Settles O19: memory is on the list of FX55 alone, whose completed store changes only the X bytes from I on, all
checked against the legal window (rules R30, R32, R40). -/
theorem onlyBlockStoreWritesMemory : Obligations.OnlyBlockStoreWritesMemory := by
  intro i s t a h hne
  obtain ⟨x, rfl⟩ := eq_storeRegs_of_writes (mem_writes_of_not_same h fun hsame => hne (hsame a))
  rcases accessing_cases h with ⟨c, b, -, rfl⟩ | ⟨hlegal, rfl⟩
  · exact absurd rfl hne
  · have hread : (storeBlock s x.val).read a ≠ s.mem.read a := hne
    rw [read_storeBlock] at hread
    have hrange : s.i.toNat ≤ a ∧ a < s.i.toNat + x.val := by
      by_contra hout
      exact hread (if_neg hout)
    have hwindow := checkAddrs_dataAddrs_eq_none.mp hlegal
    have hx := x.isLt
    have hk : (regNo (a - s.i.toNat)).val = a - s.i.toNat := regNo_val (by omega)
    simp only [Config.reservedBase] at hwindow
    refine ⟨by omega, x, regNo (a - s.i.toNat), rfl, by omega, ?_⟩
    rw [hk, State.dataAddr]
    omega

/-! ### The call stack (rule R44) -/

theorem live_entry_kept {i : Instr} {s t : State} (h : exec i s = .next t) {k : Fin 12} (hs : k.val < s.sp.toNat) :
    t.stack.get k = s.stack.get k := by
  rcases exec_cases h with ⟨n, c, a, -, rfl⟩ | ⟨u, target, d, rfl, -, -, -, -, hmove, -⟩
  · rfl
  · rcases hmove with ⟨-, hstk, -⟩ | ⟨-, -, hstk, -⟩ | ⟨-, -, hstk, -⟩
    · rw [complete_stack, hstk]
    · rw [complete_stack, hstk, get_push, if_neg (by omega)]
    · rw [complete_stack, hstk]

theorem stack_of_exec_ret {s t : State} (h : exec .ret s = .next t) : t.stack = s.stack := by
  simp only [exec, execRet] at h
  split at h
  · cases h; rfl
  · split at h
    · cases h; rfl
    · cases h

/-- Settles O27: the stack is on the lists of CALL and RET alone; a pop keeps the entries, and a push writes the entry
at SP, which was not live. -/
theorem liveReturnAddressesKept : Obligations.LiveReturnAddressesKept := by
  refine fun i s t h => ⟨fun k hs _ => live_entry_kept h hs, fun hcall => ?_⟩
  by_cases hret : i = .ret
  · subst hret
    exact ⟨stack_of_exec_ret h, fun hne => absurd rfl hne⟩
  · have hsame : Same .callStack s t := by
      by_contra hchanged
      rcases eq_ret_or_call_of_writes (mem_writes_of_not_same h hchanged) with hr | ⟨nnn, hc⟩
      · exact hret hr
      · exact hcall nnn hc
    exact ⟨hsame.2, fun _ => hsame.1⟩

theorem step_of_ret_bytes {t : State} {k : Fin 12} (hrun : t.status = .run) (hpc : t.pc.toNat ≤ 0xE9E)
    (hhi : t.mem.read t.pc.toNat = 0x00) (hlo : t.mem.read (t.pc.toNat + 1) = 0xEE) (hsp : t.sp.toNat = k.val + 1) :
    step t = .next (complete (t.stack.get k) .none t.pop) := by
  have hne : t.sp ≠ 0 := by
    intro h
    simp [h] at hsp
  rw [step_of_bytes hrun hpc hhi hlo]
  exact exec_ret_of_top hne (top_eq_get hsp)

/-- Settles O26: the call pushes p + 2 and the return, fetched at the call's target, pops it; the entries below are not
written. -/
theorem callThenRetComesBack : Obligations.CallThenRetComesBack := by
  intro s nnn hrun hsp hpc hnnn hcall hhi hlo
  have hstep : step s = .next (complete (zextAddr nnn) .none (s.push (s.pc + 2))) := by
    rw [step_of_bytes hrun hpc rfl rfl, hcall, exec_call_of_lt nnn hsp, zextAddr_eq_ofNat]
  have hret := step_of_ret_bytes (t := complete (zextAddr nnn) .none (s.push (s.pc + 2))) (k := ⟨s.sp.toNat, hsp⟩)
    hrun (by simpa using hnnn) (by simpa using hhi) (by simpa using hlo)
    (push_sp_toNat (s.pc + 2) hsp)
  have hback : (s.push (s.pc + 2)).stack.get ⟨s.sp.toNat, hsp⟩ = s.pc + 2 := (get_push _ _).trans (if_pos rfl)
  refine ⟨_, _, hstep, hret, hback, ?_, fun k hk => ?_, ?_⟩
  · simp
  · exact (get_push _ k).trans (if_neg (by omega))
  · exact onlyChanges_of fun p => by cases p <;> simp [Same]

/-! ### PC (rule R13) -/

theorem pc_of_accessing {k : Access} {l : List Nat} {s u t : State} (h : accessing k l s (advance u) = .next t)
    (hpc : u.pc = s.pc) : t.pc = s.pc + 2 ∨ t.pc = s.pc ∧ t.status = .fault := by
  rcases accessing_cases h with ⟨c, a, -, rfl⟩ | ⟨-, rfl⟩
  · exact .inr ⟨rfl, rfl⟩
  · exact .inl (by simp [hpc])

theorem pc_of_skipIf (c : Bool) (s : State) : (skipIf c s).pc = s.pc + 2 ∨ (skipIf c s).pc = s.pc + 4 := by
  cases c <;> simp

/-- Settles O28: the four transfers need no claim, a skip chooses between + 2 and + 4, an access advances or faults, and
the rest advance (rule R13). -/
theorem pcMovesByInstructionKind : Obligations.PcMovesByInstructionKind := by
  intro i s t h
  cases i with
  | jp | call | ret | jpV0 => simp
  | seImm | sneImm | seReg | sneReg =>
    cases h
    exact (pc_of_skipIf _ s).imp_right fun h4 => .inl ⟨h4, by simp⟩
  | drw | storeRegs | loadRegs =>
    exact (pc_of_accessing h rfl).imp_right fun hf => .inr (.inr hf)
  | cls | sys | ldImm | addImm | ldReg | orReg | andReg | xorReg | addReg | subReg | shr | subnReg | shl | undef8 | ldI
  | rnd | skp | sknp | undefE | ldVxDT | ldVxK | ldDTVx | ldSTVx | addI | ldFVx | ldBVx | undefF =>
    cases h; exact .inl rfl

/-! ### The diagnostic (rule R174) -/

/-- The diagnostic of an instruction that completes (rules R162, R164). -/
def diagOf (s : State) : Instr → Diag
  | .undef8 _ _ _ | .undefE _ _ | .undefF _ _ => .undefinedInstruction
  | .ret => if s.sp = 0 then .stackUnderflow else .none
  | _ => .none

theorem diag_complete {s : State} {target : Word} {d : Diag} {o : StepOutputs}
    (h : (complete target d s).outputs = some o) : o.diag = d := by
  obtain rfl : (⟨d, target == s.pc⟩ : StepOutputs) = o := by simpa using h
  rfl

theorem diag_accessing {k : Access} {l : List Nat} {s u t : State} {o : StepOutputs}
    (h : accessing k l s (advance u) = .next t) (ho : t.outputs = some o) : o.diag = .none := by
  rcases accessing_cases h with ⟨c, a, -, rfl⟩ | ⟨-, rfl⟩
  · simp at ho
  · exact diag_complete ho

theorem diag_of_exec {i : Instr} {s t : State} {o : StepOutputs} (h : exec i s = .next t) (ho : t.outputs = some o) :
    o.diag = diagOf s i := by
  cases i with
  | ret =>
    simp only [exec, execRet] at h
    split at h
    · next hsp => cases h; rw [diag_complete ho, diagOf, if_pos hsp]
    · next hsp =>
      split at h
      · cases h; rw [diag_complete ho, diagOf, if_neg hsp]
      · cases h
  | call nnn =>
    simp only [exec, execCall] at h
    split at h <;> cases h <;> exact diag_complete ho
  | drw | storeRegs | loadRegs => exact diag_accessing h ho
  | cls | sys | jp | jpV0 | seImm | sneImm | seReg | sneReg | ldImm | addImm | ldReg | orReg | andReg | xorReg | addReg
  | subReg | shr | subnReg | shl | undef8 | ldI | rnd | skp | sknp | undefE | ldVxDT | ldVxK | ldDTVx | ldSTVx | addI
  | ldFVx | ldBVx | undefF => cases h; exact diag_complete ho

/-- Settles O60: the diagnostic is a function of the instruction and of SP (rules R161, R162, R164, R174). -/
theorem diagnosticsAreExact : Obligations.DiagnosticsAreExact := by
  intro i s t o h ho
  rw [diag_of_exec h ho]
  cases i with
  | ret =>
    rw [diagOf]
    split
    · next hsp => simp [hsp]
    · next hsp => simpa using hsp
  | _ => simp [diagOf]

end Sys2Proof.Proofs

/-! Proofs of the arithmetic (`43_alu.md`, `42_immediate_index_random.md`, `41_skips.md`, `40_control_flow.md` rule R74,
`46_index_block.md` rule R150): results and flags as numbers, one equation per meaning, and the statements. -/

namespace Sys2Proof.Proofs

open Sys2Proof.Machine

/-! ### Results and flags as numbers (rules R105 to R109) -/

theorem carryFlag_eq (a b : Byte) : carryFlag a b = if a.toNat + b.toNat > 255 then 1 else 0 := by
  simp [carryFlag, flagByte]

theorem notBorrowFlag_eq (a b : Byte) : notBorrowFlag a b = if b.toNat > a.toNat then 0 else 1 := by
  by_cases h : a.toNat < b.toNat <;> simp [notBorrowFlag, flagByte, h]

theorem carryFlag_toNat (a b : Byte) : (carryFlag a b).toNat = if a.toNat + b.toNat > 255 then 1 else 0 := by
  rw [carryFlag_eq, apply_ite BitVec.toNat]
  rfl

theorem notBorrowFlag_toNat (a b : Byte) : (notBorrowFlag a b).toNat = if b.toNat > a.toNat then 0 else 1 := by
  rw [notBorrowFlag_eq, apply_ite BitVec.toNat]
  rfl

theorem shiftRightFlag_toNat (a : Byte) : (shiftRightFlag a).toNat = a.toNat % 2 := by
  rw [shiftRightFlag, BitVec.toNat_and]
  exact Nat.and_one_is_mod a.toNat

theorem shiftLeftFlag_toNat (a : Byte) : (shiftLeftFlag a).toNat = a.toNat / 128 := by
  rw [shiftLeftFlag, BitVec.toNat_ushiftRight, Nat.shiftRight_eq_div_pow]

theorem byte_shr_toNat (a : Byte) : (a >>> 1).toNat = a.toNat / 2 := by
  rw [BitVec.toNat_ushiftRight, Nat.shiftRight_eq_div_pow]

theorem byte_shl_toNat (a : Byte) : (a <<< 1).toNat = 2 * a.toNat % 256 := by
  rw [BitVec.toNat_shiftLeft, Nat.shiftLeft_eq, Nat.mul_comm]

theorem byte_sub_toNat (a b : Byte) : (a - b).toNat = (a.toNat + 256 - b.toNat) % 256 := by
  have hb := b.isLt
  rw [BitVec.toNat_sub]
  congr 1
  omega

/-- A byte whose number is known. -/
theorem byte_eq_ofNat {a : Byte} {n : Nat} (h : a.toNat = n) : a = BitVec.ofNat 8 n := by
  rw [← h, BitVec.ofNat_toNat, BitVec.setWidth_eq]

theorem byte_sub_eq_ofInt (a b : Byte) : a - b = BitVec.ofInt 8 ((a.toNat : Int) - b.toNat) := by
  apply BitVec.eq_of_toNat_eq
  rw [byte_sub_toNat, BitVec.toNat_ofInt]
  have ha := a.isLt
  have hb := b.isLt
  omega

/-! ### A completed write of VF and VX -/

theorem exec_addReg (x y : Reg) (s : State) :
    exec (.addReg x y) s = .next (complete (s.pc + 2) .none
      ((s.setReg VF (carryFlag (s.reg x) (s.reg y))).setReg x (s.reg x + s.reg y))) := rfl

theorem exec_subReg (x y : Reg) (s : State) :
    exec (.subReg x y) s = .next (complete (s.pc + 2) .none
      ((s.setReg VF (notBorrowFlag (s.reg x) (s.reg y))).setReg x (s.reg x - s.reg y))) := rfl

theorem exec_shr (x y : Reg) (s : State) :
    exec (.shr x y) s = .next (complete (s.pc + 2) .none
      ((s.setReg VF (shiftRightFlag (s.reg x))).setReg x (s.reg x >>> 1))) := rfl

theorem exec_subnReg (x y : Reg) (s : State) :
    exec (.subnReg x y) s = .next (complete (s.pc + 2) .none
      ((s.setReg VF (notBorrowFlag (s.reg y) (s.reg x))).setReg x (s.reg y - s.reg x))) := rfl

theorem exec_shl (x y : Reg) (s : State) :
    exec (.shl x y) s = .next (complete (s.pc + 2) .none
      ((s.setReg VF (shiftLeftFlag (s.reg x))).setReg x (s.reg x <<< 1))) := rfl

/-- VF is written first and VX over it (rule R100, decision D11). -/
theorem writesRegAndFlag_of_exec {i : Instr} {x : Reg} {b flag : Byte} {s : State}
    (h : exec i s = .next (complete (s.pc + 2) .none ((s.setReg VF flag).setReg x b))) :
    WritesRegAndFlag i x b flag s := by
  refine ⟨_, h, fun r => ?_, endsAt_complete rfl _ _,
    onlyChanges_mono (onlyChanges_complete_of (onlyChanges_with_v s _) _ _) (by simp)⟩
  rw [complete_reg, reg_setReg, reg_setReg]

/-- With X = F the flag is lost under the result. -/
theorem writesReg_of_flag {i : Instr} {b flag : Byte} {s : State} (h : WritesRegAndFlag i VF b flag s) :
    WritesReg i VF b s := by
  obtain ⟨t, hexec, hreg, hends, hframe⟩ := h
  refine ⟨t, hexec, fun r => ?_, hends, hframe⟩
  rw [hreg r]
  by_cases hr : r = VF <;> simp [hr]

theorem addReg_writes (x y : Reg) (s : State) :
    WritesRegAndFlag (.addReg x y) x (BitVec.ofNat 8 (((s.reg x).toNat + (s.reg y).toNat) % 256))
      (if (s.reg x).toNat + (s.reg y).toNat > 255 then 1 else 0) s := by
  rw [← byte_add_eq_ofNat, ← carryFlag_eq]
  exact writesRegAndFlag_of_exec (exec_addReg x y s)

theorem subReg_writes (x y : Reg) (s : State) :
    WritesRegAndFlag (.subReg x y) x (BitVec.ofInt 8 (((s.reg x).toNat : Int) - (s.reg y).toNat))
      (if (s.reg y).toNat > (s.reg x).toNat then 0 else 1) s := by
  rw [← byte_sub_eq_ofInt, ← notBorrowFlag_eq]
  exact writesRegAndFlag_of_exec (exec_subReg x y s)

theorem shr_writes (x y : Reg) (s : State) :
    WritesRegAndFlag (.shr x y) x (BitVec.ofNat 8 ((s.reg x).toNat / 2)) (BitVec.ofNat 8 ((s.reg x).toNat % 2)) s := by
  rw [← byte_eq_ofNat (byte_shr_toNat _), ← byte_eq_ofNat (shiftRightFlag_toNat _)]
  exact writesRegAndFlag_of_exec (exec_shr x y s)

theorem subnReg_writes (x y : Reg) (s : State) :
    WritesRegAndFlag (.subnReg x y) x (BitVec.ofInt 8 (((s.reg y).toNat : Int) - (s.reg x).toNat))
      (if (s.reg x).toNat > (s.reg y).toNat then 0 else 1) s := by
  rw [← byte_sub_eq_ofInt, ← notBorrowFlag_eq]
  exact writesRegAndFlag_of_exec (exec_subnReg x y s)

theorem shl_writes (x y : Reg) (s : State) :
    WritesRegAndFlag (.shl x y) x (BitVec.ofNat 8 (2 * (s.reg x).toNat % 256))
      (BitVec.ofNat 8 ((s.reg x).toNat / 128)) s := by
  rw [← byte_eq_ofNat (byte_shl_toNat _), ← byte_eq_ofNat (shiftLeftFlag_toNat _)]
  exact writesRegAndFlag_of_exec (exec_shl x y s)

/-- Settles O37: VF first, VX over it (rule R105). -/
theorem addSetsCarry : Obligations.AddSetsCarry :=
  fun x y s => ⟨decodeWord_addReg x y, fun _ => addReg_writes x y s⟩

/-- Settles O38: VX is the minuend (rule R106). -/
theorem subSetsNotBorrow : Obligations.SubSetsNotBorrow :=
  fun x y s => ⟨decodeWord_subReg x y, fun _ => subReg_writes x y s⟩

/-- Settles O39: bit 0 is the remainder of the halving (rule R107). -/
theorem shrShiftsOutBit0 : Obligations.ShrShiftsOutBit0 :=
  fun x y s => ⟨decodeWord_shr x y, fun _ => shr_writes x y s⟩

/-- Settles O40: VY is the minuend (rule R108). -/
theorem subnSetsNotBorrow : Obligations.SubnSetsNotBorrow :=
  fun x y s => ⟨decodeWord_subnReg x y, fun _ => subnReg_writes x y s⟩

/-- Settles O41: bit 7 is the quotient by 128 (rule R109). -/
theorem shlShiftsOutBit7 : Obligations.ShlShiftsOutBit7 :=
  fun x y s => ⟨decodeWord_shl x y, fun _ => shl_writes x y s⟩

/-- Settles O42: the same five writes at X = F (rule R100, case 3). -/
theorem flagIsLostWhenXIsF : Obligations.FlagIsLostWhenXIsF :=
  fun y s => ⟨writesReg_of_flag (addReg_writes VF y s), writesReg_of_flag (subReg_writes VF y s),
    writesReg_of_flag (shr_writes VF y s), writesReg_of_flag (subnReg_writes VF y s),
    writesReg_of_flag (shl_writes VF y s)⟩

/-! ### Result and flag together (rule R111) -/

theorem add_identity (a b : Byte) : (a + b).toNat + 256 * (carryFlag a b).toNat = a.toNat + b.toNat := by
  have ha := a.isLt
  have hb := b.isLt
  rw [BitVec.toNat_add, carryFlag_toNat]
  split
  · omega
  · omega

theorem sub_identity (a b : Byte) : (a - b).toNat + b.toNat + 256 * (notBorrowFlag a b).toNat = a.toNat + 256 := by
  have ha := a.isLt
  have hb := b.isLt
  rw [byte_sub_toNat, notBorrowFlag_toNat]
  split
  · omega
  · omega

theorem shr_identity (a : Byte) : 2 * (a >>> 1).toNat + (shiftRightFlag a).toNat = a.toNat := by
  rw [byte_shr_toNat, shiftRightFlag_toNat]
  omega

theorem shl_identity (a : Byte) : (a <<< 1).toNat + 256 * (shiftLeftFlag a).toNat = 2 * a.toNat := by
  rw [byte_shl_toNat, shiftLeftFlag_toNat]
  omega

/-- What holds of the result and the flag holds of VX and VF afterwards, for X other than F. -/
theorem exists_of_writesRegAndFlag {i : Instr} {x : Reg} {b flag : Byte} {s : State} (hx : x ≠ VF)
    (P : Byte → Byte → Prop) (hP : P b flag)
    (h : exec i s = .next (complete (s.pc + 2) .none ((s.setReg VF flag).setReg x b))) :
    ∃ t, exec i s = .next t ∧ P (t.reg x) (t.reg VF) := by
  refine ⟨_, h, ?_⟩
  rw [complete_reg, complete_reg, reg_setReg_self, reg_setReg_of_ne _ _ hx.symm, reg_setReg_self]
  exact hP

/-- Settles O43: each identity is one of result and flag as numbers (rule R111). -/
theorem aluIdentities : Obligations.AluIdentities :=
  fun x y s hx => ⟨
    exists_of_writesRegAndFlag hx (fun r f => r.toNat + 256 * f.toNat = _) (add_identity _ _) (exec_addReg x y s),
    exists_of_writesRegAndFlag hx (fun r f => r.toNat + _ + 256 * f.toNat = _) (sub_identity _ _) (exec_subReg x y s),
    exists_of_writesRegAndFlag hx (fun r f => r.toNat + _ + 256 * f.toNat = _) (sub_identity _ _) (exec_subnReg x y s),
    exists_of_writesRegAndFlag hx (fun r f => 2 * r.toNat + f.toNat = _) (shr_identity _) (exec_shr x y s),
    exists_of_writesRegAndFlag hx (fun r f => r.toNat + 256 * f.toNat = _) (shl_identity _) (exec_shl x y s)⟩

/-! ### Skips, offsets and random bytes -/

theorem exec_seReg (x y : Reg) (n : Nibble) (s : State) :
    exec (.seReg x y n) s = .next (complete (if s.reg x = s.reg y then s.pc + 4 else s.pc + 2) .none s) :=
  congrArg _ (skipIf_beq (s.reg x) (s.reg y) s)

theorem exec_sneReg (x y : Reg) (n : Nibble) (s : State) :
    exec (.sneReg x y n) s = .next (complete (if s.reg x = s.reg y then s.pc + 2 else s.pc + 4) .none s) :=
  congrArg _ (skipIf_bne (s.reg x) (s.reg y) s)

/-- Settles O30: N stands in no meaning (rules R82, R83). -/
theorem registerSkips : Obligations.RegisterSkips := by
  refine fun x y n s => ⟨decodeWord_seReg x y n, decodeWord_sneReg x y n, ?_, ?_⟩
  · exact ⟨_, exec_seReg x y n s, endsAt_complete rfl _ _, onlyChanges_complete _ _ _⟩
  · exact ⟨_, exec_sneReg x y n s, endsAt_complete rfl _ _, onlyChanges_complete _ _ _⟩

theorem exec_jpV0 (nnn : Addr12) (s : State) :
    exec (.jpV0 nnn) s = .next (complete (zextAddr nnn + zextByte (s.reg V0)) .none s) := rfl

/-- A 12-bit address and a byte have a sum of 16 bits (decision D6). -/
theorem zextAddr_add_zextByte_toNat (nnn : Addr12) (b : Byte) :
    (zextAddr nnn + zextByte b).toNat = nnn.toNat + b.toNat := by
  have hnnn := nnn.isLt
  have hb := b.isLt
  rw [word_add_toNat (by rw [zextAddr_toNat, zextByte_toNat]; omega), zextAddr_toNat, zextByte_toNat]

/-- Settles O25: the step completes at the exact sum (rule R74). -/
theorem jpV0AddsOffset : Obligations.JpV0AddsOffset := by
  intro nnn s
  have hsum := zextAddr_add_zextByte_toNat nnn (s.reg V0)
  refine ⟨decodeWord_jpV0 nnn, _, exec_jpV0 nnn s, hsum, ?_, onlyChanges_complete _ _ _⟩
  rw [← hsum, BitVec.ofNat_toNat, BitVec.setWidth_eq]
  exact endsAt_complete rfl _ _

theorem exec_rnd (x : Reg) (nn : Byte) (s : State) :
    exec (.rnd x nn) s = .next (complete (s.pc + 2) .none (s.setReg x (Config.rnd s.draws &&& nn)).countDraw) := rfl

/-- Settles O34: one write of the masked byte to VX and one count of the draw (rule R93). -/
theorem rndMasksOneDraw : Obligations.RndMasksOneDraw := by
  intro x nn s
  have hreg : ∀ r : Reg, (complete (s.pc + 2) .none (s.setReg x (Config.rnd s.draws &&& nn)).countDraw).reg r =
      if r = x then Config.rnd s.draws &&& nn else s.reg r := fun r => reg_setReg s x r _
  refine ⟨decodeWord_rnd x nn, _, exec_rnd x nn s, hreg, ?_, rfl, endsAt_complete rfl _ _,
    onlyChanges_mono (onlyChanges_complete_of (onlyChanges_draw s _) _ _) (by simp)⟩
  rw [hreg x, if_pos rfl, BitVec.and_assoc]
  simp

theorem exec_addI (x : Reg) (s : State) :
    exec (.addI x) s = .next (complete (s.pc + 2) .none { s with i := s.i + zextByte (s.reg x) }) := rfl

/-- Settles O52: one write of the 16-bit sum to I (rule R150). -/
theorem addIndexWraps : Obligations.AddIndexWraps := by
  intro x s
  have hsum : (s.i + zextByte (s.reg x)).toNat = (s.i.toNat + (s.reg x).toNat) % 65536 := by
    rw [BitVec.toNat_add, zextByte_toNat]
  exact ⟨decodeWord_addI x, _, exec_addI x s, hsum, endsAt_complete rfl _ _,
    onlyChanges_mono (onlyChanges_complete_of (onlyChanges_with_i s _) _ _) (by simp)⟩

/-! ### Who writes VF (rule R11) -/

/-- An instruction whose one register write is to VX changes VF only where X is F. -/
theorem eq_VF_of_setReg {x : Reg} {b : Byte} {s t : State} (ht : ∀ r, t.reg r = (s.setReg x b).reg r)
    (hVF : t.reg VF ≠ s.reg VF) : x = VF := by
  by_contra hx
  exact hVF ((ht VF).trans (reg_setReg_of_ne s b (Ne.symm hx)))

/-- FX65 loads at most V0 to VE (decision D7). -/
theorem loadRegs_keeps_VF {x : Reg} {s t : State} (h : exec (.loadRegs x) s = .next t) : t.reg VF = s.reg VF := by
  rcases accessing_cases h with ⟨c, a, -, rfl⟩ | ⟨-, rfl⟩
  · rfl
  · have hx := x.isLt
    exact (get_loadBlock s (by omega) VF).trans (if_neg (by simp only [VF]; omega))

/-- Settles O45: an instruction that changes VF has the registers on its list, and of those each writes VX alone, is one
of the six flag writers, or loads below VF. -/
theorem onlySixWriteVfAsFlag : Obligations.OnlySixWriteVfAsFlag := by
  intro i s t h hVF
  have hregs : .regs ∈ writes i := mem_writes_of_not_same h fun hsame => hVF (hsame VF)
  cases i with
  | addReg | subReg | shr | subnReg | shl | drw => simp
  | ldImm | addImm | ldReg | orReg | andReg | xorReg | rnd =>
    cases h
    obtain rfl := eq_VF_of_setReg (fun _ => rfl) hVF
    simp
  | loadRegs x => exact absurd (loadRegs_keeps_VF h) hVF
  | cls | ret | sys | jp | call | jpV0 | seImm | sneImm | seReg | sneReg | undef8 | ldI | skp | sknp | undefE | ldVxDT
  | ldVxK | ldDTVx | ldSTVx | addI | ldFVx | ldBVx | storeRegs | undefF => simp [writes] at hregs

end Sys2Proof.Proofs

/-! Proofs of the draw (`44_display.md` rules R120 to R124): the row mask and the sprite pixel by pixel, the state that
a draw leaves, and the statements. -/

namespace Sys2Proof.Proofs

open Sys2Proof.Machine

/-! ### Pixels -/

/-- Both shifts of rule R121 move bit k of the byte to bit k + 56 - x of the row. -/
theorem getLsbD_rowMask (b x : Byte) {j : Nat} (hj : j < 64) :
    (rowMask b x).getLsbD j = (decide (56 ≤ j + x.toNat) && b.getLsbD (j + x.toNat - 56)) := by
  have hwide : ∀ k, (b.setWidth 64).getLsbD k = b.getLsbD k := fun k => by
    rw [BitVec.getLsbD_setWidth]
    by_cases hk : k < 64
    · simp [hk]
    · simp [hk, BitVec.getLsbD_of_ge b k (by omega)]
  rw [rowMask]
  split
  · have hk : j - (56 - x.toNat) = j + x.toNat - 56 := by omega
    rw [BitVec.getLsbD_shiftLeft, hwide, hk]
    by_cases hle : 56 ≤ j + x.toNat
    · simp [hj, hle, show ¬ j < 56 - x.toNat by omega]
    · simp [hle, show j < 56 - x.toNat by omega]
  · have hk : x.toNat - 56 + j = j + x.toNat - 56 := by omega
    rw [BitVec.getLsbD_ushiftRight, hwide, hk, decide_eq_true (by omega), Bool.true_and]

/-- Settles O47: bit 63 - c of the row is bit 7 + x - c of the byte, which exists where x ≤ c ≤ x + 7 (rule R121). -/
theorem rowMaskPlacesByte : Obligations.RowMaskPlacesByte := by
  intro b x c
  have hc := c.isLt
  rw [getLsbD_rowMask b x (by omega)]
  by_cases hleft : x.toNat ≤ c.val
  · by_cases hright : c.val ≤ x.toNat + 7
    · have hk : 63 - c.val + x.toNat - 56 = 7 - (c.val - x.toNat) := by omega
      rw [hk, decide_eq_true (by omega), decide_eq_true ⟨hleft, hright⟩]
    · rw [decide_eq_false (by omega), decide_eq_false (by omega), Bool.false_and, Bool.false_and]
  · rw [BitVec.getLsbD_of_ge b (63 - c.val + x.toNat - 56) (by omega), Bool.and_false, decide_eq_false (by omega),
      Bool.false_and]

/-- A sprite pixel is a bit of the mask of its row (rules R121, R123). -/
theorem spritePixel_eq (s : State) (x y : Byte) (n : Nibble) (r : Fin 32) (c : Fin 64) :
    spritePixel s x y n r c = (decide (y.toNat ≤ r.val ∧ r.val < y.toNat + n.toNat) &&
      (spriteMask s x (r.val - y.toNat)).getLsbD (63 - c.val)) := by
  rw [spriteMask, rowMaskPlacesByte, ← Bool.and_assoc, ← Bool.decide_and, spritePixel, State.dataAddr]
  simp only [and_assoc]

/-- Clipping at row 31 loses no row of the framebuffer (decision D8). -/
theorem lt_drawnRows_iff {y : Byte} {n : Nibble} {k : Nat} :
    k < drawnRows y n ↔ k < n.toNat ∧ y.toNat + k < 32 := by
  unfold drawnRows
  split <;> omega

theorem mem_drawnRows_iff {y : Byte} {n : Nibble} (r : Fin 32) :
    (y.toNat ≤ r.val ∧ r.val < y.toNat + drawnRows y n) ↔ (y.toNat ≤ r.val ∧ r.val < y.toNat + n.toNat) := by
  have hr := r.isLt
  have hlt := lt_drawnRows_iff (y := y) (n := n) (k := r.val - y.toNat)
  omega

theorem and_ne_zero_iff (u v : PixelRow) :
    u &&& v ≠ 0 ↔ ∃ c : Fin 64, u.getLsbD (63 - c.val) = true ∧ v.getLsbD (63 - c.val) = true := by
  constructor
  · intro h
    by_contra hnone
    refine h (BitVec.eq_of_getLsbD_eq fun j hj => ?_)
    have hc := not_exists.mp hnone ⟨63 - j, by omega⟩
    simp only [show 63 - (63 - j) = j by omega] at hc
    simpa using hc
  · rintro ⟨c, hu, hv⟩ hzero
    have hbit := congrArg (fun w => BitVec.getLsbD w (63 - c.val)) hzero
    simp [hu, hv] at hbit

/-! ### The state after a draw -/

/-- What `DRW Vx, Vy, n` at column x and row y writes before it completes (rule R123). -/
def drawn (s : State) (x y : Byte) (n : Nibble) : State :=
  State.setReg { s with fb := (drawRows s x y (drawnRows y n)).1 } VF (flagByte (drawRows s x y (drawnRows y n)).2)

/-- All n data bytes are in the legal window, or there is none (rule R32). -/
def DataLegal (s : State) (n : Nat) : Prop := n = 0 ∨ s.i.toNat + n ≤ Config.reservedBase

theorem accessing_of_legal {s done : State} {n : Nat} (h : DataLegal s n) :
    accessing .data (s.dataAddrs n) s done = .next done :=
  accessing_of_none (checkAddrs_dataAddrs_eq_none.mpr h)

/-- An access after which the core runs took no fault. -/
theorem legal_of_run {s done t : State} {n : Nat} (h : accessing .data (s.dataAddrs n) s done = .next t)
    (ht : t.status = .run) : DataLegal s n ∧ t = done := by
  rcases accessing_cases h with ⟨c, a, -, rfl⟩ | ⟨hlegal, hdone⟩
  · cases ht
  · exact ⟨checkAddrs_dataAddrs_eq_none.mp hlegal, hdone⟩

theorem exec_drw_of_legal {x y : Reg} {n : Nibble} {s : State} (h : DataLegal s (drawnRows (s.reg y) n)) :
    exec (.drw x y n) s = .next (complete (s.pc + 2) .none (drawn s (s.reg x) (s.reg y) n)) :=
  accessing_of_legal h

theorem drawn_fb (s : State) (x y : Byte) (n : Nibble) (k : Fin 32) :
    (drawn s x y n).fb.get k = if y.toNat ≤ k.val ∧ k.val < y.toNat + n.toNat
      then s.fb.get k ^^^ spriteMask s x (k.val - y.toNat) else s.fb.get k := by
  refine (drawRows_fst s x y k).trans ?_
  simp only [mem_drawnRows_iff]

theorem drawn_pixel (s : State) (x y : Byte) (n : Nibble) (r : Fin 32) (c : Fin 64) :
    (drawn s x y n).pixel r c = (s.pixel r c ^^ spritePixel s x y n r c) := by
  rw [State.pixel, drawn_fb, spritePixel_eq, State.pixel]
  split
  · next h => rw [BitVec.getLsbD_xor, decide_eq_true h, Bool.true_and]
  · next h => rw [decide_eq_false h, Bool.false_and, Bool.xor_false]

theorem drawn_reg_VF (s : State) (x y : Byte) (n : Nibble) :
    (drawn s x y n).reg VF = flagByte (drawRows s x y (drawnRows y n)).2 :=
  reg_setReg_self _ _ _

theorem drawn_reg_of_ne (s : State) (x y : Byte) (n : Nibble) {r : Reg} (h : r ≠ VF) :
    (drawn s x y n).reg r = s.reg r :=
  reg_setReg_of_ne _ _ h

theorem flagByte_eq_one_iff (b : Bool) : flagByte b = 1 ↔ b = true := by
  cases b <;> simp [flagByte]

theorem flagByte_cases (b : Bool) : flagByte b = 0 ∨ flagByte b = 1 := by
  cases b <;> simp [flagByte]

/-- VF is 1 exactly on a collision (rule R124). -/
theorem drawn_collision_iff (s : State) (x y : Byte) (n : Nibble) :
    (drawn s x y n).reg VF = 1 ↔ ∃ r c, s.pixel r c = true ∧ spritePixel s x y n r c = true := by
  rw [drawn_reg_VF, flagByte_eq_one_iff, drawRows_snd]
  constructor
  · rintro ⟨q, hq, hne⟩
    obtain ⟨hqn, hq32⟩ := lt_drawnRows_iff.mp hq
    obtain ⟨c, hpixel, hmask⟩ := (and_ne_zero_iff _ _).mp hne
    refine ⟨⟨y.toNat + q, hq32⟩, c, ?_, ?_⟩
    · rwa [fbRow_get _ ⟨y.toNat + q, hq32⟩] at hpixel
    · have hrow : y.toNat + q - y.toNat = q := by omega
      rw [spritePixel_eq, hrow, hmask, Bool.and_true, decide_eq_true]
      exact ⟨Nat.le_add_right _ _, Nat.add_lt_add_left hqn _⟩
  · rintro ⟨r, c, hpixel, hsprite⟩
    rw [spritePixel_eq, Bool.and_eq_true, decide_eq_true_iff] at hsprite
    obtain ⟨⟨hle, hlt⟩, hmask⟩ := hsprite
    have hr := r.isLt
    refine ⟨r.val - y.toNat, lt_drawnRows_iff.mpr (by omega), (and_ne_zero_iff _ _).mpr ⟨c, ?_, hmask⟩⟩
    rw [show y.toNat + (r.val - y.toNat) = r.val by omega, fbRow_get]
    exact hpixel

/-- The condition of rule R123 on the rows inside the framebuffer is the check of rule R32 on their bytes. -/
theorem dataLegal_of_rows {s : State} {y : Byte} {n : Nibble}
    (h : ∀ r : Nat, r < n.toNat → y.toNat + r ≤ 31 → s.dataAddr r ≤ 0xE9F) : DataLegal s (drawnRows y n) := by
  by_cases h0 : drawnRows y n = 0
  · exact .inl h0
  · obtain ⟨hn, h32⟩ := lt_drawnRows_iff.mp (show drawnRows y n - 1 < drawnRows y n by omega)
    have hlast := h _ hn (by omega)
    simp only [State.dataAddr] at hlast
    exact .inr (by simp only [Config.reservedBase]; omega)

/-- Settles O48: pixel by pixel the draw is one XOR with the sprite, and the rest of the state is VF and the advance. -/
theorem drwXorsSprite : Obligations.DrwXorsSprite := by
  refine fun x y n s => ⟨decodeWord_drw x y n, fun hrows => ?_⟩
  exact ⟨_, exec_drw_of_legal (dataLegal_of_rows hrows), drawn_pixel s _ _ n,
    (drawn_reg_VF s _ _ n) ▸ flagByte_cases _, drawn_collision_iff s _ _ n, fun _ hr => drawn_reg_of_ne s _ _ n hr,
    endsAt_complete rfl _ _, onlyChanges_mono (onlyChanges_complete_of (onlyChanges_with_fb_v s _ _) _ _) (by simp)⟩

/-! ### The same draw again -/

theorem spriteMask_congr {s t : State} (hi : t.i = s.i) (hmem : t.mem = s.mem) (x : Byte) (r : Nat) :
    spriteMask t x r = spriteMask s x r := by
  simp only [spriteMask, State.dataAddr, hi, hmem]

theorem spritePixel_congr {s t : State} (hi : t.i = s.i) (hmem : t.mem = s.mem) (x y : Byte) (n : Nibble) (r : Fin 32)
    (c : Fin 64) : spritePixel t x y n r c = spritePixel s x y n r c := by
  simp only [spritePixel_eq, spriteMask_congr hi hmem]

theorem fb_ext {fb fb' : Vector PixelRow 32} (h : ∀ k : Fin 32, fb.get k = fb'.get k) : fb = fb' :=
  Vector.ext fun k hk => h ⟨k, hk⟩

/-- A second XOR with the same rows takes the first one back. -/
theorem drawn_drawn_fb {s t : State} {x y : Byte} {n : Nibble} (hi : t.i = s.i) (hmem : t.mem = s.mem)
    (hfb : t.fb = (drawn s x y n).fb) : (drawn t x y n).fb = s.fb := by
  refine fb_ext fun k => ?_
  rw [drawn_fb, spriteMask_congr hi hmem, hfb, drawn_fb]
  split
  · rw [BitVec.xor_assoc, BitVec.xor_self, BitVec.xor_zero]
  · rfl

/-- Where nothing was lit before the first draw, the second one meets the first one's pixels. -/
theorem drawn_drawn_collision_iff {s t : State} {x y : Byte} {n : Nibble} (hi : t.i = s.i) (hmem : t.mem = s.mem)
    (hfb : t.fb = (drawn s x y n).fb) (hempty : ∀ r : Fin 32, s.fb.get r = 0) :
    (drawn t x y n).reg VF = 1 ↔ ∃ r c, spritePixel s x y n r c = true := by
  have hpixel : ∀ r c, t.pixel r c = spritePixel s x y n r c := by
    intro r c
    have hfirst := drawn_pixel s x y n r c
    simpa [State.pixel, hempty r, ← hfb] using hfirst
  simp only [drawn_collision_iff, hpixel, spritePixel_congr hi hmem, and_self]

/-- Settles O49: the position, I and memory are as before the first draw, so the second one XORs the same rows; on an
empty framebuffer the lit pixels it meets are the sprite's own (log entry 10). -/
theorem drawTwiceRestores : Obligations.DrawTwiceRestores := by
  intro x y n s t u hx hy hs ht htrun hu
  obtain ⟨hlegal, hdone⟩ := legal_of_run ht htrun
  obtain rfl : t = complete (s.pc + 2) .none (drawn s (s.reg x) (s.reg y) n) := hdone
  have hregx := drawn_reg_of_ne s (s.reg x) (s.reg y) n hx
  have hregy := drawn_reg_of_ne s (s.reg x) (s.reg y) n hy
  rw [exec_drw_of_legal (by rw [complete_reg, hregy]; exact hlegal), complete_reg, complete_reg, hregx, hregy] at hu
  obtain rfl := Host.Outcome.next.inj hu
  exact ⟨hs, drawn_drawn_fb rfl rfl rfl, drawn_drawn_collision_iff rfl rfl rfl⟩

end Sys2Proof.Proofs

/-! Proofs of the block transfers (`46_index_block.md` rules R151, R152) and of the data faults (`20_memory.md` rules
R32, R39): what a stored and a loaded block reads as, the first illegal address of an access, and the statements. -/

namespace Sys2Proof.Proofs

open Sys2Proof.Machine

/-! ### The two transfers inside the legal window -/

theorem exec_storeRegs_of_legal {x : Reg} {s : State} (h : DataLegal s x.val) :
    exec (.storeRegs x) s = .next (complete (s.pc + 2) .none { s with mem := storeBlock s x.val }) :=
  accessing_of_legal h

theorem exec_loadRegs_of_legal {x : Reg} {s : State} (h : DataLegal s x.val) :
    exec (.loadRegs x) s = .next (complete (s.pc + 2) .none { s with v := loadBlock s x.val }) :=
  accessing_of_legal h

/-- The stored byte k is V(k) (rule R151). -/
theorem read_storeBlock_dataAddr (s : State) {n : Nat} {k : Reg} (h : k.val < n) :
    (storeBlock s n).read (s.dataAddr k.val) = s.reg k := by
  have hk : regNo k.val = k := Fin.ext (regNo_val k.isLt)
  simp only [State.dataAddr]
  rw [read_storeBlock, if_pos (by omega), Nat.add_sub_cancel_left, hk]

theorem read_storeBlock_of_ne (s : State) {n a : Nat} (hn : n ≤ 16) (h : ∀ k : Reg, k.val < n → a ≠ s.dataAddr k.val) :
    (storeBlock s n).read a = s.mem.read a := by
  rw [read_storeBlock, if_neg]
  rintro ⟨hle, hlt⟩
  exact h ⟨a - s.i.toNat, by omega⟩ (by simp only; omega) (by simp only [State.dataAddr]; omega)

/-- Settles O54: inside the window the completed store has exactly the X bytes from I on changed (rule R151). -/
theorem blockStoreWritesBelowX : Obligations.BlockStoreWritesBelowX := by
  refine fun x s => ⟨decodeWord_storeRegs x, fun hlegal => ?_⟩
  exact ⟨_, exec_storeRegs_of_legal hlegal, fun _ hk => read_storeBlock_dataAddr s hk,
    fun _ ha => read_storeBlock_of_ne s x.isLt.le ha, endsAt_complete rfl _ _,
    onlyChanges_mono (onlyChanges_complete_of (onlyChanges_with_mem s _) _ _) (by simp)⟩

/-- Settles O55: inside the window the completed load has exactly V0 to V(X - 1) changed (rule R152). -/
theorem blockLoadReadsBelowX : Obligations.BlockLoadReadsBelowX := by
  refine fun x s => ⟨decodeWord_loadRegs x, fun hlegal => ?_⟩
  exact ⟨_, exec_loadRegs_of_legal hlegal, fun r => get_loadBlock s x.isLt.le r, endsAt_complete rfl _ _,
    onlyChanges_mono (onlyChanges_complete_of (onlyChanges_with_v s _) _ _) (by simp)⟩

/-- Settles O57: the load reads, at the same I, the bytes that the store wrote (rule R152). -/
theorem storeThenLoadRestores : Obligations.StoreThenLoadRestores := by
  intro x s t u w hs hstore ht hmem hi hload r hr
  obtain ⟨hlegal, rfl⟩ := legal_of_run hstore ht
  have hlegal' : DataLegal u x.val := by rwa [DataLegal, hi]
  rw [exec_loadRegs_of_legal hlegal'] at hload
  obtain rfl := Host.Outcome.next.inj hload
  have hread : (storeBlock s x.val).read (s.i.toNat + r.val) = s.reg r := read_storeBlock_dataAddr s hr
  calc (loadBlock u x.val).get r
      = u.mem.read (u.i.toNat + r.val) := (get_loadBlock u x.isLt.le r).trans (if_pos hr)
    _ = (storeBlock s x.val).read (s.i.toNat + r.val) := by rw [hi, hmem]; rfl
    _ = s.reg r := hread

/-- Settles O58: the two bytes at the new PC are in the stored block, which is inside the legal window (rule R42). -/
theorem storeIntoCodeIsFetched : Obligations.StoreIntoCodeIsFetched := by
  intro x k k' s t hk hk' haddr hs hstore ht
  obtain ⟨hlegal, rfl⟩ := legal_of_run hstore ht
  have hwindow : s.i.toNat + x.val ≤ 0xEA0 := hlegal.resolve_left (by omega)
  have haddr' : s.dataAddr k'.val = s.pc.toNat + 2 + 1 := by simp only [State.dataAddr] at haddr ⊢; omega
  simp only [State.dataAddr] at haddr
  have hpc : (s.pc + 2).toNat = s.pc.toNat + 2 := word_add_toNat (by simp; omega)
  refine step_of_bytes hs (le_of_eq_of_le hpc (by omega)) ?_ ?_
  · refine Eq.trans ?_ (read_storeBlock_dataAddr s (n := x.val) (k := k) (by omega))
    exact congrArg _ (hpc.trans haddr.symm)
  · refine Eq.trans ?_ (read_storeBlock_dataAddr s hk')
    exact congrArg _ ((congrArg (· + 1) hpc).trans haddr'.symm)

/-! ### The data faults -/

/-- The first illegal address is I itself, or the first one of the reserved region (rules R32, R166). -/
theorem checkAddrs_dataAddrs_of_illegal {s : State} {n : Nat} (hn : 0 < n) (h : 0xEA0 < s.i.toNat + n) :
    checkAddrs .data (s.dataAddrs n) =
      some (if s.i.toNat ≤ 0xFFF then .dataReserved else .dataRange, max s.i.toNat 0xEA0) := by
  refine checkAddrs_dataAddrs_eq_some.mpr ⟨hn, h, rfl, ?_⟩
  simp only [checkAddr, Config.reservedBase, Config.memSize, reservedCause, rangeCause]
  rw [if_neg (by omega)]
  by_cases hi : s.i.toNat ≤ 0xFFF
  · rw [if_pos hi, if_pos (by omega)]
  · rw [if_neg hi, if_neg (by omega)]

theorem accessing_faulted {s done : State} {n : Nat} (hn : 0 < n) (h : 0xEA0 < s.i.toNat + n) :
    ∃ t, accessing .data (s.dataAddrs n) s done = .next t ∧
      Faulted (if s.i.toNat ≤ 0xFFF then .dataReserved else .dataRange) (max s.i.toNat 0xEA0) s t :=
  ⟨_, accessing_of_some (checkAddrs_dataAddrs_of_illegal hn h), faulted_takeFault (by omega) s⟩

/-- Settles O56: each of the three is an access to cnt bytes from I on, checked before any effect (rules R32, R39). -/
theorem dataOutsideWindowFaults : Obligations.DataOutsideWindowFaults := by
  rintro i cnt s (⟨x, rfl, rfl⟩ | ⟨x, rfl, rfl⟩ | ⟨x, y, n, rfl, rfl⟩) hcnt hout
  · exact accessing_faulted hcnt hout
  · exact accessing_faulted hcnt hout
  · exact accessing_faulted hcnt hout

end Sys2Proof.Proofs

/-! Proof that hidden state stays hidden (`10_state.md` sections 5, 7 and 9): what two states that look the same to a
program agree on, each update of the state keeps that, and so do every instruction and every step. -/

namespace Sys2Proof.Proofs

open Sys2Proof.Machine

/-! ### What the two states agree on -/

section
variable {s s' : State} (h : SameToProgram s s')
include h

theorem same_reg (r : Reg) : s'.reg r = s.reg r := by obtain ⟨hreg, -⟩ := h; exact hreg r

theorem same_i : s'.i = s.i := by obtain ⟨-, hi, -⟩ := h; exact hi

theorem same_pc : s'.pc = s.pc := by obtain ⟨-, -, hpc, -⟩ := h; exact hpc

theorem same_sp : s'.sp = s.sp := by obtain ⟨-, -, -, hsp, -⟩ := h; exact hsp

theorem same_stack {k : Fin 12} (hk : k.val < s.sp.toNat) : s'.stack.get k = s.stack.get k := by
  obtain ⟨-, -, -, -, hstack, -⟩ := h
  exact hstack k hk

theorem same_fb : s'.fb = s.fb := by obtain ⟨-, -, -, -, -, hfb, -⟩ := h; exact hfb

theorem same_read {a : Nat} (ha : a < Config.reservedBase) : s'.mem.read a = s.mem.read a := by
  obtain ⟨-, -, -, -, -, -, hmem, -⟩ := h
  exact hmem a ha

theorem same_status : s'.status = s.status := by obtain ⟨-, -, -, -, -, -, -, hst, -⟩ := h; exact hst

theorem same_draws : s'.draws = s.draws := by obtain ⟨-, -, -, -, -, -, -, -, -, -, hd⟩ := h; exact hd

/-! ### Each update of the state keeps the agreement -/

theorem same_complete {target target' : Word} (ht : target' = target) (d : Diag) :
    SameToProgram (complete target d s) (complete target' d s') := by
  obtain ⟨hreg, hi, -, hrest⟩ := h
  exact ⟨hreg, hi, ht, hrest⟩

theorem same_takeFault (c : FaultCause) (a : Nat) : SameToProgram (takeFault c a s) (takeFault c a s') := by
  obtain ⟨hreg, hi, hpc, hsp, hstack, hfb, hmem, -, -, -, hd⟩ := h
  exact ⟨hreg, hi, hpc, hsp, hstack, hfb, hmem, rfl, rfl, rfl, hd⟩

theorem same_with_v {v v' : Vector Byte 16} (hv : ∀ r : Reg, v'.get r = v.get r) :
    SameToProgram { s with v := v } { s' with v := v' } := by
  obtain ⟨-, hrest⟩ := h
  exact ⟨hv, hrest⟩

theorem same_setReg {b b' : Byte} (hb : b' = b) (r : Reg) : SameToProgram (s.setReg r b) (s'.setReg r b') := by
  refine same_with_v h fun q => ?_
  change (s'.setReg r b').reg q = (s.setReg r b).reg q
  rw [reg_setReg, reg_setReg, hb, same_reg h]

theorem same_with_i {w w' : Word} (hw : w' = w) : SameToProgram { s with i := w } { s' with i := w' } := by
  obtain ⟨hreg, -, hrest⟩ := h
  exact ⟨hreg, hw, hrest⟩

theorem same_with_fb {fb fb' : Vector PixelRow 32} (hfb : fb' = fb) :
    SameToProgram { s with fb := fb } { s' with fb := fb' } := by
  obtain ⟨hreg, hi, hpc, hsp, hstack, -, hrest⟩ := h
  exact ⟨hreg, hi, hpc, hsp, hstack, hfb, hrest⟩

theorem same_with_mem {m m' : Memory} (hm : ∀ a, a < Config.reservedBase → m'.read a = m.read a) :
    SameToProgram { s with mem := m } { s' with mem := m' } := by
  obtain ⟨hreg, hi, hpc, hsp, hstack, hfb, -, hrest⟩ := h
  exact ⟨hreg, hi, hpc, hsp, hstack, hfb, hm, hrest⟩

theorem same_countDraw : SameToProgram s.countDraw s'.countDraw := by
  obtain ⟨hreg, hi, hpc, hsp, hstack, hfb, hmem, hst, hc, ha, hd⟩ := h
  exact ⟨hreg, hi, hpc, hsp, hstack, hfb, hmem, hst, hc, ha, congrArg (· + 1) hd⟩

/-- A push overwrites the one stale entry that becomes live. -/
theorem same_push {a a' : Word} (ha : a' = a) (hlt : s.sp.toNat < Config.stackDepth) :
    SameToProgram (s.push a) (s'.push a') := by
  have hstack := @same_stack s s' h
  obtain ⟨hreg, hi, hpc, hsp, -, hrest⟩ := h
  refine ⟨hreg, hi, hpc, congrArg (· + 1) hsp, fun k hk => ?_, hrest⟩
  rw [push_sp_toNat a hlt] at hk
  rw [get_push, get_push, ha, hsp]
  split
  · rfl
  · exact hstack (by omega)

theorem same_pop (hne : s.sp ≠ 0) : SameToProgram s.pop s'.pop := by
  have hstack := @same_stack s s' h
  obtain ⟨hreg, hi, hpc, hsp, -, hrest⟩ := h
  refine ⟨hreg, hi, hpc, congrArg (· - 1) hsp, fun k hk => hstack ?_, hrest⟩
  rw [pop_sp_toNat hne] at hk
  omega

/-! ### What an instruction reads -/

/-- The top of the stack is a live entry. -/
theorem same_top (hne : s.sp ≠ 0) (hle : s.sp.toNat ≤ 12) : s'.top = s.top := by
  have hpos : s.sp.toNat ≠ 0 := fun h0 => hne (BitVec.eq_of_toNat_eq h0)
  have hsp := same_sp h
  rw [top_eq (s := s) (by omega), top_eq (s := s') (by rw [hsp]; omega)]
  simp only [hsp]
  exact congrArg some (same_stack h (by simp only; omega))

theorem same_drawRows {cnt : Nat} (hlegal : DataLegal s cnt) (x y : Byte) :
    drawRows s' x y cnt = drawRows s x y cnt := by
  induction cnt with
  | zero => simp only [drawRows, same_fb h]
  | succ r ih =>
    have hwindow : s.i.toNat + (r + 1) ≤ Config.reservedBase := hlegal.resolve_left (by omega)
    have hmask : spriteMask s' x r = spriteMask s x r := by
      simp only [spriteMask, State.dataAddr, same_i h]
      rw [same_read h (by omega)]
    simp only [drawRows, ih (.inr (by omega)), hmask]

theorem same_storeBlock (n : Nat) {a : Nat} (ha : a < Config.reservedBase) :
    (storeBlock s' n).read a = (storeBlock s n).read a := by
  rw [read_storeBlock, read_storeBlock, same_i h, same_reg h, same_read h ha]

theorem same_loadBlock {n : Nat} (hn : n ≤ 16) (hlegal : DataLegal s n) (r : Reg) :
    (loadBlock s' n).get r = (loadBlock s n).get r := by
  rw [get_loadBlock s' hn, get_loadBlock s hn, same_reg h, same_i h]
  split
  · have hwindow : s.i.toNat + n ≤ Config.reservedBase := hlegal.resolve_left (by omega)
    exact same_read h (by omega)
  · rfl

theorem same_accessing {n : Nat} {done done' t : State} (hdone : DataLegal s n → SameToProgram done done')
    (hexec : accessing .data (s.dataAddrs n) s done = .next t) :
    ∃ t', accessing .data (s'.dataAddrs n) s' done' = .next t' ∧ SameToProgram t t' := by
  have haddr : s'.dataAddr = s.dataAddr := by
    funext k
    simp only [State.dataAddr, same_i h]
  rw [show s'.dataAddrs n = s.dataAddrs n by simp only [State.dataAddrs, haddr]]
  rcases accessing_cases hexec with ⟨c, a, hc, rfl⟩ | ⟨hc, rfl⟩
  · exact ⟨_, accessing_of_some hc, same_takeFault h c a⟩
  · exact ⟨_, accessing_of_none hc, hdone (checkAddrs_dataAddrs_eq_none.mp hc)⟩

/-! ### Each shared operation keeps the agreement -/

theorem same_advance : SameToProgram (advance s) (advance s') :=
  same_complete h (by rw [same_pc h]) _

theorem same_undefined : SameToProgram (undefinedInstruction s) (undefinedInstruction s') :=
  same_complete h (by rw [same_pc h]) _

theorem same_skipIf {c c' : Bool} (hc : c' = c) : SameToProgram (skipIf c s) (skipIf c' s') :=
  same_complete h (by rw [hc, same_pc h]) _

theorem same_aluPlain (f : Byte → Byte → Byte) (x y : Reg) : SameToProgram (aluPlain f x y s) (aluPlain f x y s') :=
  same_advance (same_setReg h (by rw [same_reg h, same_reg h]) x)

theorem same_aluFlag (flag f : Byte → Byte → Byte) (x y : Reg) :
    SameToProgram (aluFlag flag f x y s) (aluFlag flag f x y s') :=
  same_advance (same_setReg (same_setReg h (by rw [same_reg h, same_reg h]) VF) (by rw [same_reg h, same_reg h]) x)

theorem same_drawn {x y : Byte} {n : Nibble} (hlegal : DataLegal s (drawnRows y n)) :
    SameToProgram (drawn s x y n) (drawn s' x y n) := by
  have hrows := same_drawRows h hlegal x y
  exact same_setReg (same_with_fb h (by rw [hrows])) (by rw [hrows]) VF

/-! ### Every instruction and every step keeps the agreement -/

theorem same_exec_ret {t : State} (hsp : s.sp.toNat ≤ 12) (hexec : exec .ret s = .next t) :
    ∃ t', exec .ret s' = .next t' ∧ SameToProgram t t' := by
  by_cases hempty : s.sp = 0
  · rw [exec_ret_of_empty hempty] at hexec
    cases hexec
    exact ⟨_, exec_ret_of_empty ((same_sp h).trans hempty), same_complete h (same_pc h) _⟩
  · have htop : s.top = some (s.stack.get ⟨s.sp.toNat - 1, by omega⟩) := top_eq (by omega)
    rw [exec_ret_of_top hempty htop] at hexec
    cases hexec
    exact ⟨_, exec_ret_of_top (same_sp h ▸ hempty) ((same_top h hempty hsp).trans htop),
      same_complete (same_pop h hempty) rfl _⟩

theorem same_exec_call {nnn : Addr12} {t : State} (hexec : exec (.call nnn) s = .next t) :
    ∃ t', exec (.call nnn) s' = .next t' ∧ SameToProgram t t' := by
  have hnext : s'.pc + 2 = s.pc + 2 := by rw [same_pc h]
  by_cases hlt : s.sp.toNat < Config.stackDepth
  · rw [exec_call_of_lt nnn hlt] at hexec
    cases hexec
    exact ⟨_, exec_call_of_lt nnn (same_sp h ▸ hlt), same_complete (same_push h hnext hlt) rfl _⟩
  · rw [exec_call_of_full nnn hlt] at hexec
    cases hexec
    exact ⟨_, exec_call_of_full nnn (same_sp h ▸ hlt), same_complete h hnext _⟩

theorem same_exec {i : Instr} {t : State} (hsp : s.sp.toNat ≤ 12) (hexec : exec i s = .next t) :
    ∃ t', exec i s' = .next t' ∧ SameToProgram t t' := by
  have hreg := same_reg h
  cases i with
  | ret => exact same_exec_ret h hsp hexec
  | call nnn => exact same_exec_call h hexec
  | jp nnn => cases hexec; exact ⟨_, rfl, same_complete h rfl _⟩
  | jpV0 nnn => cases hexec; exact ⟨_, rfl, same_complete h (by rw [hreg]) _⟩
  | seImm | sneImm | seReg | sneReg => cases hexec; exact ⟨_, rfl, same_skipIf h (by simp only [hreg])⟩
  | ldImm x nn => cases hexec; exact ⟨_, rfl, same_advance (same_setReg h rfl x)⟩
  | addImm x nn => cases hexec; exact ⟨_, rfl, same_advance (same_setReg h (by rw [hreg]) x)⟩
  | rnd x nn =>
    cases hexec
    have hdraw : s'.nextDraw = s.nextDraw := congrArg Config.rnd (same_draws h)
    exact ⟨_, rfl, same_advance (same_countDraw (same_setReg h (by rw [hdraw]) x))⟩
  | ldReg | orReg | andReg | xorReg => cases hexec; exact ⟨_, rfl, same_aluPlain h _ _ _⟩
  | addReg | subReg | shr | subnReg | shl => cases hexec; exact ⟨_, rfl, same_aluFlag h _ _ _ _⟩
  | ldI nnn => cases hexec; exact ⟨_, rfl, same_advance (same_with_i h rfl)⟩
  | addI x => cases hexec; exact ⟨_, rfl, same_advance (same_with_i h (by rw [same_i h, hreg]))⟩
  | cls => cases hexec; exact ⟨_, rfl, same_advance (same_with_fb h rfl)⟩
  | drw x y n =>
    simp only [exec, execDrw, hreg]
    exact same_accessing h (fun hlegal => same_advance (same_drawn h hlegal)) hexec
  | storeRegs x =>
    exact same_accessing h (fun _ => same_advance (same_with_mem h fun _ => same_storeBlock h x.val)) hexec
  | loadRegs x =>
    exact same_accessing h (fun hlegal => same_advance (same_with_v h (same_loadBlock h x.isLt.le hlegal))) hexec
  | undef8 | undefE | undefF => cases hexec; exact ⟨_, rfl, same_undefined h⟩
  | sys | skp | sknp | ldVxDT | ldVxK | ldDTVx | ldSTVx | ldFVx | ldBVx =>
    cases hexec; exact ⟨_, rfl, same_advance h⟩

theorem same_fetchCheck : fetchCheck s' = fetchCheck s := by
  simp only [fetchCheck, State.fetchAddr, same_pc h]

theorem same_fetchWord (hfetch : fetchCheck s = none) : fetchWord s' = fetchWord s := by
  have hpc := fetchCheck_eq_none.mp hfetch
  simp only [fetchWord, State.fetchAddr, same_pc h]
  rw [same_read h (by omega), same_read h hpc]

end

/-- Settles O13: the fetch and the data accesses read inside the legal window, and RET reads a live entry (rules R14,
R16, R19). -/
theorem hiddenStateStaysHidden : Obligations.HiddenStateStaysHidden := by
  intro s s' t hsp h hstep
  cases hst : s.status with
  | fault =>
    obtain rfl : s = t := Host.Outcome.next.inj ((step_of_fault hst).symm.trans hstep)
    exact ⟨s', step_of_fault ((same_status h).trans hst), h⟩
  | run =>
    have hst' : s'.status = .run := (same_status h).trans hst
    cases hfetch : fetchCheck s with
    | some p =>
      rw [step_of_fetchFault hst hfetch] at hstep
      cases hstep
      exact ⟨_, step_of_fetchFault hst' ((same_fetchCheck h).trans hfetch), same_takeFault h _ _⟩
    | none =>
      rw [step_of_legal hst hfetch] at hstep
      rw [step_of_legal hst' ((same_fetchCheck h).trans hfetch), same_fetchWord h hfetch]
      exact same_exec h hsp hstep

end Sys2Proof.Proofs
